-- ==== Sys2Proof/Word.lean ====
section
/-! DEFINITION. The words of the unit: the byte of a buffer, the 64-bit lane (R11), and the two lane
constants of R8. -/

namespace Sys2Proof

/-- One buffer byte: `BYTE_BITS = 8` (R7). -/
abbrev Byte := BitVec 8

/-- A lane, the 64-bit leaf of every composite value (R11), and the native scalar, `SCALAR_BITS = 64` (R7, C1). -/
abbrev Lane := BitVec 64

/-- `ONES64` of R8. -/
abbrev ones64 : Lane := 0xFFFFFFFFFFFFFFFF#64

/-- `ZERO64` of R8. -/
abbrev zero64 : Lane := 0#64

end Sys2Proof
end

