-- ==== Sys2Proof/Machine/Values.lean ====
section
/-! DEFINITION. The value types of the unit (R11 to R20): nested records of two halves down to 64-bit lanes, in an
unsigned, a signed and a decimal view, their flattening to bits, and the status a response carries (R143). -/

namespace Sys2Proof

/-- The supported widths N (R7 `WIDTHS`). -/
inductive Width where
  | n128
  | n256
  | n512
  deriving DecidableEq, Repr

/-- N, in bits (R7). -/
def widthBits : Width → Nat
  | .n128 => 128
  | .n256 => 256
  | .n512 => 512

/-- The three views of one width: unsigned, signed, decimal (R51 type codes). -/
inductive View where
  | u
  | s
  | d
  deriving DecidableEq, Repr

/-- One of the nine value types (R8). -/
structure WideType where
  view  : View
  width : Width
  deriving DecidableEq, Repr

/-- U128 (R12): `low` holds the least significant 64 bits. -/
structure U128 where
  low  : Lane
  high : Lane
  deriving DecidableEq, Repr

/-- U256 (R13). -/
structure U256 where
  low  : U128
  high : U128
  deriving DecidableEq, Repr

/-- U512 (R14). -/
structure U512 where
  low  : U256
  high : U256
  deriving DecidableEq, Repr

/-- S128 (R15): the layout of `U128`, no sign field. -/
structure S128 where
  low  : Lane
  high : Lane
  deriving DecidableEq, Repr

/-- S256 (R15): the halves are of the unsigned type. DESIGN CHOICE of the spec (D11), safe: no bit depends on it. -/
structure S256 where
  low  : U128
  high : U128
  deriving DecidableEq, Repr

/-- S512 (R15). -/
structure S512 where
  low  : U256
  high : U256
  deriving DecidableEq, Repr

/-- D128, the alias of S128: no scale, no further field (R16). -/
abbrev D128 := S128

/-- D256, the alias of S256 (R16). -/
abbrev D256 := S256

/-- D512, the alias of S512 (R16). -/
abbrev D512 := S512

/-! Flattening (R17): `bits(T{Low: a, High: b}) = {bits(b), bits(a)}`, and its inverse. -/

def U128.bits (x : U128) : BitVec 128 := x.high ++ x.low
def U256.bits (x : U256) : BitVec 256 := x.high.bits ++ x.low.bits
def U512.bits (x : U512) : BitVec 512 := x.high.bits ++ x.low.bits
def S128.bits (x : S128) : BitVec 128 := x.high ++ x.low
def S256.bits (x : S256) : BitVec 256 := x.high.bits ++ x.low.bits
def S512.bits (x : S512) : BitVec 512 := x.high.bits ++ x.low.bits

def U128.ofBits (v : BitVec 128) : U128 := { low := v.extractLsb' 0 64, high := v.extractLsb' 64 64 }
def U256.ofBits (v : BitVec 256) : U256 :=
  { low := U128.ofBits (v.extractLsb' 0 128), high := U128.ofBits (v.extractLsb' 128 128) }
def U512.ofBits (v : BitVec 512) : U512 :=
  { low := U256.ofBits (v.extractLsb' 0 256), high := U256.ofBits (v.extractLsb' 256 256) }
def S128.ofBits (v : BitVec 128) : S128 := { low := v.extractLsb' 0 64, high := v.extractLsb' 64 64 }
def S256.ofBits (v : BitVec 256) : S256 :=
  { low := U128.ofBits (v.extractLsb' 0 128), high := U128.ofBits (v.extractLsb' 128 128) }
def S512.ofBits (v : BitVec 512) : S512 :=
  { low := U256.ofBits (v.extractLsb' 0 256), high := U256.ofBits (v.extractLsb' 256 256) }

/-- `lane(X, k) = X[64k+63 : 64k]` (R8): lane 0 is the least significant. -/
def lane {N : Nat} (X : BitVec N) (k : Nat) : Lane := X.extractLsb' (64 * k) 64

/-- The lanes of a 128-, 256- or 512-bit vector from lane 0 up (R18). -/
def lanes {N : Nat} (X : BitVec N) : List Lane := (List.range (N / 64)).map (lane X)

/-- A value the host holds, or a response carries: its type is part of the term, not of the bits (R19, R20, R60). -/
inductive WideValue where
  | u128 (x : U128)
  | u256 (x : U256)
  | u512 (x : U512)
  | s128 (x : S128)
  | s256 (x : S256)
  | s512 (x : S512)
  | d128 (x : D128)
  | d256 (x : D256)
  | d512 (x : D512)
  deriving DecidableEq, Repr

def WideValue.type : WideValue → WideType
  | .u128 _ => ⟨.u, .n128⟩
  | .u256 _ => ⟨.u, .n256⟩
  | .u512 _ => ⟨.u, .n512⟩
  | .s128 _ => ⟨.s, .n128⟩
  | .s256 _ => ⟨.s, .n256⟩
  | .s512 _ => ⟨.s, .n512⟩
  | .d128 _ => ⟨.d, .n128⟩
  | .d256 _ => ⟨.d, .n256⟩
  | .d512 _ => ⟨.d, .n512⟩

/-- The value on a 512-bit port: its bits in `[N-1:0]`, zeros above (R21). -/
def WideValue.port : WideValue → BitVec 512
  | .u128 x => x.bits.setWidth 512
  | .u256 x => x.bits.setWidth 512
  | .u512 x => x.bits
  | .s128 x => x.bits.setWidth 512
  | .s256 x => x.bits.setWidth 512
  | .s512 x => x.bits
  | .d128 x => S128.bits x |>.setWidth 512
  | .d256 x => S256.bits x |>.setWidth 512
  | .d512 x => S512.bits x

/-- The value of type `T` in the low N bits of a 512-bit port (R21). -/
def WideValue.ofPort (T : WideType) (v : BitVec 512) : WideValue :=
  match T.view, T.width with
  | .u, .n128 => .u128 (U128.ofBits (v.setWidth 128))
  | .u, .n256 => .u256 (U256.ofBits (v.setWidth 256))
  | .u, .n512 => .u512 (U512.ofBits v)
  | .s, .n128 => .s128 (S128.ofBits (v.setWidth 128))
  | .s, .n256 => .s256 (S256.ofBits (v.setWidth 256))
  | .s, .n512 => .s512 (S512.ofBits v)
  | .d, .n128 => .d128 (S128.ofBits (v.setWidth 128))
  | .d, .n256 => .d256 (S256.ofBits (v.setWidth 256))
  | .d, .n512 => .d512 (S512.ofBits v)

/-- What a response reports (R143): values 2 and 3 of the port are never produced (U10), so the type has two members. -/
inductive Status where
  | ok
  | bufShort
  deriving DecidableEq, Repr

end Sys2Proof
end

