-- ==== Sys2Proof/Config.lean ====
section
/-! DEFINITION. The parameters a build of the unit fixes (R7), and the free values: what the spec leaves undefined on the
response ports. The free values have no body, so nothing can be proved of them. -/

namespace Sys2Proof

/-- The parameters of R7 that are not one fixed number. They are fixed when the hardware is built and are no registers
(R26): no step changes them. `LENW` needs no field, a length is a natural number (R7, D10). -/
structure Build where
  /-- `NARROW_CODECS`: whether DEC128, ENC128, DEC256, ENC256 exist (R2, R7, D9). -/
  narrowCodecs : Bool
  /-- `NUM_UNITS`: how many independent units there are, at least 1 (R7, R154, D21). -/
  numUnits : Nat
  deriving DecidableEq, Repr

/-- The base configuration of R2 with one unit. -/
def Build.base : Build := { narrowCodecs := false, numUnits := 1 }

/-- What the `r` port holds when it holds no defined value: after `BUF_SHORT`, after an ENC (R21, R144, U7), and after a
reset (R161). FREE VALUE, safe (log entry 4): the argument is the state's counter of free values used. -/
opaque Config.freeResult : Nat → BitVec 512

/-- What the `status` port holds after a reset and before the next response (R161). FREE VALUE, safe (log entry 13). -/
opaque Config.freeStatus : Nat → Bool

end Sys2Proof
end

