-- ==== Sys2Proof/Syntax.lean ====
section
/-! DEFINITION. The operations of WIDEINT, one constructor per row of the opcode map (R56). The operation word has no
operand fields (R50, R55): operands travel on the request's ports, so no constructor takes an argument. -/

namespace Sys2Proof

/-- The 36 operations of R56: 32 of the base configuration and the four of the option `NARROW_CODECS` (R130).
`cast<N>XY` is `CAST<N>.X.Y`: X the destination type, Y the source type (R55). -/
inductive Instr where
  /-- `U128.FROMINT`, op 0x00 (R76). -/
  | u128FromInt
  /-- `U128.FROMUINT`, op 0x01 (R80). -/
  | u128FromUint
  /-- `S128.FROMINT`, op 0x04 (R72). -/
  | s128FromInt
  /-- `D128.FROMINT`, op 0x08 (R111). -/
  | d128FromInt
  /-- `U256.FROMINT`, op 0x10 (R77). -/
  | u256FromInt
  /-- `U256.FROMUINT`, op 0x11 (R81). -/
  | u256FromUint
  /-- `S256.FROMINT`, op 0x14 (R73). -/
  | s256FromInt
  /-- `D256.FROMINT`, op 0x18 (R112). -/
  | d256FromInt
  /-- `U512.FROMINT`, op 0x20 (R78). -/
  | u512FromInt
  /-- `U512.FROMUINT`, op 0x21 (R82). -/
  | u512FromUint
  /-- `S512.FROMINT`, op 0x24 (R74). -/
  | s512FromInt
  /-- `D512.FROMINT`, op 0x28 (R113). -/
  | d512FromInt
  /-- `CAST128.U.S`, op 0x41 (R91). -/
  | cast128US
  /-- `CAST128.U.D`, op 0x42 (R118). -/
  | cast128UD
  /-- `CAST128.S.U`, op 0x44 (R92). -/
  | cast128SU
  /-- `CAST128.S.D`, op 0x46 (R116). -/
  | cast128SD
  /-- `CAST128.D.U`, op 0x48 (R117). -/
  | cast128DU
  /-- `CAST128.D.S`, op 0x49 (R115). -/
  | cast128DS
  /-- `CAST256.U.S`, op 0x51 (R93). -/
  | cast256US
  /-- `CAST256.U.D`, op 0x52 (R122). -/
  | cast256UD
  /-- `CAST256.S.U`, op 0x54 (R94). -/
  | cast256SU
  /-- `CAST256.S.D`, op 0x56 (R120). -/
  | cast256SD
  /-- `CAST256.D.U`, op 0x58 (R121). -/
  | cast256DU
  /-- `CAST256.D.S`, op 0x59 (R119). -/
  | cast256DS
  /-- `CAST512.U.S`, op 0x61 (R95). -/
  | cast512US
  /-- `CAST512.U.D`, op 0x62 (R126). -/
  | cast512UD
  /-- `CAST512.S.U`, op 0x64 (R96). -/
  | cast512SU
  /-- `CAST512.S.D`, op 0x66 (R124). -/
  | cast512SD
  /-- `CAST512.D.U`, op 0x68 (R125). -/
  | cast512DU
  /-- `CAST512.D.S`, op 0x69 (R123). -/
  | cast512DS
  /-- `DEC512`, op 0xa0 (R101). -/
  | dec512
  /-- `ENC512`, op 0xa4 (R102). -/
  | enc512
  /-- `DEC128`, op 0x80 (R131). -/
  | dec128
  /-- `ENC128`, op 0x84 (R132). -/
  | enc128
  /-- `DEC256`, op 0x90 (R133). -/
  | dec256
  /-- `ENC256`, op 0x94 (R134). -/
  | enc256
  deriving DecidableEq, Repr

end Sys2Proof
end

