-- ==== Sys2Proof/Decode.lean ====
section
/-! DEFINITION. The operation-select word (R50 to R58): its fields, the decoder, which names what is wrong with a reserved
word, and the encoder. -/

namespace Sys2Proof

/-- Why a word spells no operation: the field lists of R52, R53, R54 and R57. -/
inductive DecodeReject where
  /-- `cls = 11`. -/
  | reservedClass
  /-- `wsel = 11`. -/
  | reservedWidth
  /-- `dt = 11` in CONV or CAST. -/
  | reservedDestType
  /-- `sk` of `10` or `11` in CONV. -/
  | reservedScalarKind
  /-- `(S, UINT)` or `(D, UINT)` in CONV (R52, N14). -/
  | noSuchConstructor
  /-- `st = 11` in CAST. -/
  | reservedSourceType
  /-- `dt = st` in CAST (R53, D5). -/
  | castToItself
  /-- `dir` of `10` or `11` in CODEC. -/
  | reservedDirection
  /-- `b` other than `00` in CODEC. -/
  | codecLowBits
  /-- `wsel` of `00` or `01` in CODEC of a build without `NARROW_CODECS` (R54, D9). -/
  | narrowCodecAbsent
  deriving DecidableEq, Repr

/-- Scalar kind `sk` of CONV (R51). -/
inductive ScalarKind where
  | int
  | uint
  deriving DecidableEq, Repr

/-- Direction `dir` of CODEC (R51). -/
inductive Direction where
  | dec
  | enc
  deriving DecidableEq, Repr

/-! The fields of R51. -/

def opCls (op : BitVec 8) : BitVec 2 := op.extractLsb' 6 2
def opWsel (op : BitVec 8) : BitVec 2 := op.extractLsb' 4 2
def opA (op : BitVec 8) : BitVec 2 := op.extractLsb' 2 2
def opB (op : BitVec 8) : BitVec 2 := op.extractLsb' 0 2

/-- The word `{cls, wsel, a, b}` (R51). -/
def opWord (cls wsel a b : BitVec 2) : BitVec 8 := cls ++ wsel ++ a ++ b

def decodeWidth (f : BitVec 2) : Option Width :=
  match f with
  | 0b00#2 => some .n128
  | 0b01#2 => some .n256
  | 0b10#2 => some .n512
  | _ => none

def decodeView (f : BitVec 2) : Option View :=
  match f with
  | 0b00#2 => some .u
  | 0b01#2 => some .s
  | 0b10#2 => some .d
  | _ => none

def decodeScalarKind (f : BitVec 2) : Option ScalarKind :=
  match f with
  | 0b00#2 => some .int
  | 0b01#2 => some .uint
  | _ => none

def decodeDirection (f : BitVec 2) : Option Direction :=
  match f with
  | 0b00#2 => some .dec
  | 0b01#2 => some .enc
  | _ => none

/-- The constructors that exist (R52). -/
def convInstr : Width → View → ScalarKind → Except DecodeReject Instr
  | .n128, .u, .int => .ok .u128FromInt
  | .n128, .s, .int => .ok .s128FromInt
  | .n128, .d, .int => .ok .d128FromInt
  | .n128, .u, .uint => .ok .u128FromUint
  | .n256, .u, .int => .ok .u256FromInt
  | .n256, .s, .int => .ok .s256FromInt
  | .n256, .d, .int => .ok .d256FromInt
  | .n256, .u, .uint => .ok .u256FromUint
  | .n512, .u, .int => .ok .u512FromInt
  | .n512, .s, .int => .ok .s512FromInt
  | .n512, .d, .int => .ok .d512FromInt
  | .n512, .u, .uint => .ok .u512FromUint
  | .n128, .s, .uint | .n256, .s, .uint | .n512, .s, .uint => .error .noSuchConstructor
  | .n128, .d, .uint | .n256, .d, .uint | .n512, .d, .uint => .error .noSuchConstructor

/-- The casts that exist, destination type before source type (R53). -/
def castInstr : Width → View → View → Except DecodeReject Instr
  | .n128, .u, .s => .ok .cast128US
  | .n128, .u, .d => .ok .cast128UD
  | .n128, .s, .u => .ok .cast128SU
  | .n128, .s, .d => .ok .cast128SD
  | .n128, .d, .u => .ok .cast128DU
  | .n128, .d, .s => .ok .cast128DS
  | .n256, .u, .s => .ok .cast256US
  | .n256, .u, .d => .ok .cast256UD
  | .n256, .s, .u => .ok .cast256SU
  | .n256, .s, .d => .ok .cast256SD
  | .n256, .d, .u => .ok .cast256DU
  | .n256, .d, .s => .ok .cast256DS
  | .n512, .u, .s => .ok .cast512US
  | .n512, .u, .d => .ok .cast512UD
  | .n512, .s, .u => .ok .cast512SU
  | .n512, .s, .d => .ok .cast512SD
  | .n512, .d, .u => .ok .cast512DU
  | .n512, .d, .s => .ok .cast512DS
  | _, .u, .u | _, .s, .s | _, .d, .d => .error .castToItself

/-- The codecs of a build (R54): the narrow ones only with `NARROW_CODECS`. -/
def codecInstr (narrow : Bool) : Width → Direction → Except DecodeReject Instr
  | .n512, .dec => .ok .dec512
  | .n512, .enc => .ok .enc512
  | .n128, .dec => if narrow then .ok .dec128 else .error .narrowCodecAbsent
  | .n128, .enc => if narrow then .ok .enc128 else .error .narrowCodecAbsent
  | .n256, .dec => if narrow then .ok .dec256 else .error .narrowCodecAbsent
  | .n256, .enc => if narrow then .ok .enc256 else .error .narrowCodecAbsent

def decodeConv (n : Width) (op : BitVec 8) : Except DecodeReject Instr :=
  match decodeView (opA op), decodeScalarKind (opB op) with
  | none, _ => .error .reservedDestType
  | some _, none => .error .reservedScalarKind
  | some dt, some sk => convInstr n dt sk

def decodeCast (n : Width) (op : BitVec 8) : Except DecodeReject Instr :=
  match decodeView (opA op), decodeView (opB op) with
  | none, _ => .error .reservedDestType
  | some _, none => .error .reservedSourceType
  | some dt, some st => castInstr n dt st

def decodeCodec (narrow : Bool) (n : Width) (op : BitVec 8) : Except DecodeReject Instr :=
  match decodeDirection (opA op) with
  | none => .error .reservedDirection
  | some dir => if opB op = 0b00#2 then codecInstr narrow n dir else .error .codecLowBits

/-- The operation a word selects in a build whose `NARROW_CODECS` is `narrow` (R51 to R58), or why it is reserved (R57).
Total: every word is 8 bits and nothing else is read (R50). -/
def decode (narrow : Bool) (op : BitVec 8) : Except DecodeReject Instr :=
  match decodeWidth (opWsel op), opCls op with
  | _, 0b11#2 => .error .reservedClass
  | none, _ => .error .reservedWidth
  | some n, 0b00#2 => decodeConv n op
  | some n, 0b01#2 => decodeCast n op
  | some n, _ => decodeCodec narrow n op

/-- The decoder over a sequence of bytes: the word is the first byte, and the rest is left (R50, R58). -/
def decodeBytes (narrow : Bool) : List Byte → Option (Except DecodeReject Instr × List Byte)
  | [] => none
  | op :: rest => some (decode narrow op, rest)

/-- The word of an operation, from the binary column of R56. -/
def encode : Instr → BitVec 8
  | .u128FromInt => opWord 0b00#2 0b00#2 0b00#2 0b00#2
  | .u128FromUint => opWord 0b00#2 0b00#2 0b00#2 0b01#2
  | .s128FromInt => opWord 0b00#2 0b00#2 0b01#2 0b00#2
  | .d128FromInt => opWord 0b00#2 0b00#2 0b10#2 0b00#2
  | .u256FromInt => opWord 0b00#2 0b01#2 0b00#2 0b00#2
  | .u256FromUint => opWord 0b00#2 0b01#2 0b00#2 0b01#2
  | .s256FromInt => opWord 0b00#2 0b01#2 0b01#2 0b00#2
  | .d256FromInt => opWord 0b00#2 0b01#2 0b10#2 0b00#2
  | .u512FromInt => opWord 0b00#2 0b10#2 0b00#2 0b00#2
  | .u512FromUint => opWord 0b00#2 0b10#2 0b00#2 0b01#2
  | .s512FromInt => opWord 0b00#2 0b10#2 0b01#2 0b00#2
  | .d512FromInt => opWord 0b00#2 0b10#2 0b10#2 0b00#2
  | .cast128US => opWord 0b01#2 0b00#2 0b00#2 0b01#2
  | .cast128UD => opWord 0b01#2 0b00#2 0b00#2 0b10#2
  | .cast128SU => opWord 0b01#2 0b00#2 0b01#2 0b00#2
  | .cast128SD => opWord 0b01#2 0b00#2 0b01#2 0b10#2
  | .cast128DU => opWord 0b01#2 0b00#2 0b10#2 0b00#2
  | .cast128DS => opWord 0b01#2 0b00#2 0b10#2 0b01#2
  | .cast256US => opWord 0b01#2 0b01#2 0b00#2 0b01#2
  | .cast256UD => opWord 0b01#2 0b01#2 0b00#2 0b10#2
  | .cast256SU => opWord 0b01#2 0b01#2 0b01#2 0b00#2
  | .cast256SD => opWord 0b01#2 0b01#2 0b01#2 0b10#2
  | .cast256DU => opWord 0b01#2 0b01#2 0b10#2 0b00#2
  | .cast256DS => opWord 0b01#2 0b01#2 0b10#2 0b01#2
  | .cast512US => opWord 0b01#2 0b10#2 0b00#2 0b01#2
  | .cast512UD => opWord 0b01#2 0b10#2 0b00#2 0b10#2
  | .cast512SU => opWord 0b01#2 0b10#2 0b01#2 0b00#2
  | .cast512SD => opWord 0b01#2 0b10#2 0b01#2 0b10#2
  | .cast512DU => opWord 0b01#2 0b10#2 0b10#2 0b00#2
  | .cast512DS => opWord 0b01#2 0b10#2 0b10#2 0b01#2
  | .dec512 => opWord 0b10#2 0b10#2 0b00#2 0b00#2
  | .enc512 => opWord 0b10#2 0b10#2 0b01#2 0b00#2
  | .dec128 => opWord 0b10#2 0b00#2 0b00#2 0b00#2
  | .enc128 => opWord 0b10#2 0b00#2 0b01#2 0b00#2
  | .dec256 => opWord 0b10#2 0b01#2 0b00#2 0b00#2
  | .enc256 => opWord 0b10#2 0b01#2 0b01#2 0b00#2

/-- The instruction the decoder reads from a word numbered as the opcode table numbers it (8 bits, R50). The table lists the
rows of the option too, so it is read with `NARROW_CODECS` true (log entry 2). -/
def decodeTableWord (nbits w : Nat) : Option Instr :=
  if nbits = 8 then
    match decode true (BitVec.ofNat 8 w) with
    | .ok i => some i
    | .error _ => none
  else none

end Sys2Proof
end

