-- ==== Sys2Proof/Machine/State.lean ====
section
/-! DEFINITION. The state as plain data. The unit itself holds nothing (R10, R23 to R28): what is here is the ports of a
transaction (R21), the host's buffers (R22) and values (R10), the host's moves still to come, the transactions in progress
(R39, R42) and the responses given (R171). -/

namespace Sys2Proof.Machine

/-- A host buffer (R22): `len` bytes at offsets 0 to `len - 1`. `cells` lists the bytes that are not 00, by rising offset;
an unlisted offset below `len` holds 00 (log entry 7). -/
structure Buffer where
  /-- The length L, any natural number, zero included. -/
  len : Nat
  /-- The host may write it: the "mutable bytes" of an encode (R22, R40). -/
  writable : Bool
  cells : List Host.Cell
  deriving DecidableEq, Repr

/-- The request ports of R21. -/
structure ReqPorts where
  /-- `op`, the operation-select word. -/
  op : BitVec 8
  /-- `s`, the native scalar operand. -/
  s : Lane
  /-- `w`, the wide operand. -/
  w : BitVec 512
  /-- The buffer handed over as `B` with its length `L`, by its number in `State.buffers`. -/
  buf : Nat
  deriving DecidableEq, Repr

/-- The response ports of R21. -/
structure RespPorts where
  status : Status
  /-- `r`; valid only when `status` is OK and the operation has a wide result. -/
  r : BitVec 512
  deriving DecidableEq, Repr

/-- Where the host takes the wide operand from (R60): a pattern of its own for the 512-bit port, or a value it holds. -/
inductive WideOperand where
  | port (w : BitVec 512)
  | held (name : Nat)
  deriving DecidableEq, Repr

/-- One line of a program (R60): the request, and the name the host gives the result, if any. -/
structure Request where
  op  : BitVec 8
  s   : Lane
  w   : WideOperand
  buf : Nat
  dst : Option Nat
  deriving DecidableEq, Repr

/-- What the host does next (R168, R170, R171), reset included (R160). DESIGN CHOICE, unsafe (log entry 26): no move changes the
length of a buffer or whether the host may write it; R162 makes the length the host's and is silent on a change. -/
inductive HostMove where
  /-- Present a request to a unit; the response is still to come. -/
  | issue (unit : Nat) (q : Request)
  /-- The unit gives the response to its outstanding request, at this place among the host's moves. -/
  | answer (unit : Nat)
  /-- A whole transaction: request and response with nothing between. -/
  | transact (unit : Nat) (q : Request)
  /-- The host stores one byte into a buffer of its own. -/
  | store (buf off : Nat) (v : Byte)
  /-- The host copies a value it holds. -/
  | copy (dst src : Nat)
  /-- The host brings in a further buffer, with the next number. -/
  | addBuffer (writable : Bool) (bytes : List Byte)
  /-- A reset of the units between transactions. -/
  | reset
  deriving DecidableEq, Repr

/-- A transaction in progress (R39, R42): the unit, its request ports, and the name for the result. -/
structure Pending where
  unit  : Nat
  ports : ReqPorts
  dst   : Option Nat
  deriving DecidableEq, Repr

/-- A response at the typed level (R143, R171): the status and, where there is one, the value. -/
structure Response where
  unit   : Nat
  status : Status
  value  : Option WideValue
  deriving DecidableEq, Repr

/-- The machine. -/
structure State where
  /-- The parameters of the build (R7); constant. -/
  build : Build
  /-- The request ports of the transaction being performed, or of the last one. -/
  req : ReqPorts
  /-- The response ports as the last response left them. -/
  resp : RespPorts
  /-- The host's buffers; a number with no buffer reads as an empty buffer (log entry 10). DESIGN CHOICE, unsafe (log entry
  24): no two of them share a byte, where R31 leaves their places to the host. -/
  buffers : List Buffer
  /-- The values the host holds, by name. -/
  values : List (Nat × WideValue)
  /-- The host's moves still to come. -/
  script : List HostMove
  /-- The transactions in progress, oldest first. -/
  inFlight : List Pending
  /-- The responses given, oldest first. -/
  responses : List Response
  /-- THE MODEL'S OWN: how many free values have been used (log entry 4). -/
  freeCount : Nat
  deriving DecidableEq, Repr

/-- Why the machine stops with a fault. -/
inductive Fault where
  /-- An access at an offset outside `0 .. L-1`, an address that does not exist (R30). Raised by a host store out of the
  buffer; the lane accesses of a codec are written to raise it too, but the length check comes first (R35, R141). Safe. -/
  | outsideBuffer (off : Nat)
  deriving DecidableEq, Repr

/-- Why the machine has no step. -/
inductive Refusal where
  /-- An operation without a meaning yet; raised by `exec`'s arms only. Safe. -/
  | notModelled (mnemonic : String)
  /-- A reserved operation word (R57, R147, U5): raised when the request is issued, whatever its other ports hold. Safe. -/
  | reservedOp (op : BitVec 8) (why : DecodeReject)
  /-- An encode into, or a host store to, a buffer the host may not write (R40, U6, N23). Safe. -/
  | readOnlyBuffer (buf : Nat)
  /-- A request to a unit the build does not have (R7 `NUM_UNITS`). Safe. -/
  | noSuchUnit (unit : Nat)
  /-- A request to a unit with a request outstanding (R168, R171). Safe. -/
  | unitBusy (unit : Nat)
  /-- A response asked of a unit with no request outstanding (R21). Safe. -/
  | unitIdle (unit : Nat)
  /-- An operand or a copy names a value the host does not hold (R60, R170). Safe. -/
  | valueNotHeld (name : Nat)
  /-- Concurrent use of a buffer outside the contract: overlapping transactions with an encode among them, or the host at
  bytes 0 to 63 of a buffer in use (R39, R42, U9, D13). Safe. -/
  | race (buf : Nat)
  /-- A reset while a transaction is in progress (R161, U11). Safe. -/
  | resetInFlight
  deriving DecidableEq, Repr

/-- The machine right after reset (R29, R160): the units hold nothing, no request has been made and no response given. The
base build with one unit. The ports hold no defined value then (R161); the values named here are DESIGN CHOICE, unsafe (log
entries 3, 5, 6, 7). -/
def State.reset : State where
  build := Build.base
  req := { op := 0#8, s := 0#64, w := 0#512, buf := 0 }
  resp := { status := .ok, r := 0#512 }
  buffers := []
  values := []
  script := []
  inFlight := []
  responses := []
  freeCount := 0

end Sys2Proof.Machine
end

