-- ==== Sys2Proof/Machine/Ops.lean ====
section
/-! DEFINITION. The named operations over buffers, ports and values: `MemRead` and `MemWrite` of R9, the two ends of a
transaction (R9 `return`, `raise BufTooShort`), and the value store of the host. -/

namespace Sys2Proof.Machine

/-! Memory: the cells of one buffer, a sparse list of bytes. -/

/-- The byte at offset `a`: the listed one, else 00. -/
def Memory.read : List Host.Cell → Nat → Byte
  | [], _ => 0#8
  | c :: m, a => if c.1 = a then c.2 else Memory.read m a

/-- No cell at offset `a`. -/
def Memory.erase : List Host.Cell → Nat → List Host.Cell
  | [], _ => []
  | c :: m, a => if c.1 = a then Memory.erase m a else c :: Memory.erase m a

/-- The cell put before the first one of a higher offset. -/
def Memory.insert : List Host.Cell → Nat → Byte → List Host.Cell
  | [], a, v => [(a, v)]
  | c :: m, a, v => if a < c.1 then (a, v) :: c :: m else c :: Memory.insert m a v

/-- `B[a] <- v`: writing 00 lists nothing. -/
def Memory.write (m : List Host.Cell) (a : Nat) (v : Byte) : List Host.Cell :=
  if v = 0#8 then Memory.erase m a else Memory.insert (Memory.erase m a) a v

/-- Every listed offset is above `a`, rising, and no byte is 00. -/
def Memory.wfFrom : Nat → List Host.Cell → Bool
  | _, [] => true
  | lo, c :: m => decide (lo ≤ c.1) && decide (c.2 ≠ 0#8) && Memory.wfFrom (c.1 + 1) m

/-- The canonical form: offsets strictly rising, no byte 00 listed. -/
def Memory.wf (m : List Host.Cell) : Bool := Memory.wfFrom 0 m

/-- The `8n`-bit little-endian vector at `off` (R9, R32), in a vector of width `W`: byte i of it is the byte at `off + i`.
PRESUMED by the spec's own mark (G2): the byte at the lowest offset is the least significant (log entry 19). -/
def Memory.readBytes (W : Nat) (m : List Host.Cell) (off : Nat) : Nat → BitVec W
  | 0 => 0#W
  | n + 1 => Memory.readBytes W m off n ||| ((Memory.read m (off + n)).setWidth W <<< (8 * n))

/-- `B[off+i] <- v[8i+7:8i]` for `i < n` (R9, R32). -/
def Memory.writeBytes {W : Nat} (m : List Host.Cell) (off : Nat) (v : BitVec W) : Nat → List Host.Cell
  | 0 => m
  | n + 1 => Memory.write (Memory.writeBytes m off v n) (off + n) (v.extractLsb' (8 * n) 8)

/-! Buffers. -/

/-- The buffer that stands for "no buffer handed over": no bytes (log entry 10). -/
def Buffer.empty : Buffer := { len := 0, writable := true, cells := [] }

/-- A buffer's form: canonical cells, all below the length. -/
def Buffer.wf (b : Buffer) : Bool := Memory.wf b.cells && b.cells.all (fun c => decide (c.1 < b.len))

/-- `B[off]` where `off` is below the length (R30). -/
def Buffer.byte (b : Buffer) (off : Nat) : Byte := Memory.read b.cells off

/-- The buffer of a byte sequence: its length is L (R22, U13). -/
def Buffer.ofBytes (writable : Bool) (bytes : List Byte) : Buffer :=
  { len := bytes.length, writable := writable,
    cells := (bytes.zipIdx.foldl (fun m p => Memory.write m p.2 p.1) []) }

/-- `B[off] <- v`, where the offset exists. -/
def Buffer.store (b : Buffer) (off : Nat) (v : Byte) : Option Buffer :=
  if off < b.len then some { b with cells := Memory.write b.cells off v } else none

/-- `MemRead(off, 8)` (R9, R38): one lane. No value where the bytes do not all exist. -/
def Buffer.memReadLane (b : Buffer) (off : Nat) : Option Lane :=
  if off + 8 ≤ b.len then some (Memory.readBytes 64 b.cells off 8) else none

/-- `MemWrite(off, 8, v)` (R9, R38). -/
def Buffer.memWriteLane (b : Buffer) (off : Nat) (v : Lane) : Option Buffer :=
  if off + 8 ≤ b.len then some { b with cells := Memory.writeBytes b.cells off v 8 } else none

/-- The host's buffer of a number. -/
def State.buffer (s : State) (i : Nat) : Buffer := s.buffers.getD i Buffer.empty

/-- The buffer of a number replaced; every other number's bytes stay, since no two buffers share a byte (DESIGN CHOICE, unsafe,
log entry 24). -/
def State.setBuffer (s : State) (i : Nat) (b : Buffer) : State := { s with buffers := s.buffers.set i b }

/-! The ends of a transaction. -/

/-- `return v` (R9): status OK, `r[N-1:0] = v` and zeros above (R21). -/
def State.respond {N : Nat} (s : State) (v : BitVec N) : State :=
  { s with resp := { status := .ok, r := v.setWidth 512 } }

/-- A response that carries no value: the `r` port holds any value (R21, U7), a free value. -/
def State.respondNoValue (s : State) (st : Status) : State :=
  { s with resp := { status := st, r := Config.freeResult s.freeCount }, freeCount := s.freeCount + 1 }

/-- `return` alone (R9): status OK, no wide result (R21, R102). -/
def State.respondDone (s : State) : State := s.respondNoValue .ok

/-- `raise BufTooShort` (R9, R141, R144): TAKING THE ONE EXCEPTION. The transaction ends with `BUF_SHORT`, no value and no
buffer write; nothing is recorded (D19), no mode changes, control goes nowhere, and there is no return from it (R146). -/
def State.raiseBufTooShort (s : State) : State := s.respondNoValue .bufShort

/-! The values the host holds (R10, R19). -/

/-- The value held under a name. -/
def State.value? (s : State) (name : Nat) : Option WideValue :=
  (s.values.find? (fun p => p.1 == name)).map Prod.snd

/-- The value store without a name. -/
def dropValue (vs : List (Nat × WideValue)) (name : Nat) : List (Nat × WideValue) := vs.filter (fun p => p.1 != name)

/-- The value store with a value under a name (R60 `%name =`). DESIGN CHOICE, unsafe (log entry 27): an earlier value under the
name is replaced, where R60, R19 and R168 do not say whether a name may be given twice. -/
def putValue (vs : List (Nat × WideValue)) (name : Nat) (v : WideValue) : List (Nat × WideValue) :=
  (name, v) :: dropValue vs name

/-- The outcome of a further action on a next state; a stop stays. -/
def andThen (o : Host.Outcome State Fault Refusal) (f : State → Host.Outcome State Fault Refusal) :
    Host.Outcome State Fault Refusal :=
  match o with
  | .next s => f s
  | .fault r => .fault r
  | .refused r => .refused r

end Sys2Proof.Machine
end

