-- ==== Sys2Proof/Machine/Operands.lean ====
section
/-! DEFINITION. The operand forms: what each operation reads and what it returns (R55), and the reading of the ports (R21). -/

namespace Sys2Proof.Machine

/-- The scalar operand, the whole `s` port (R55). `sval` and `uval` of it (R8) are its `toInt` and `toNat`. -/
def State.scalar (s : State) : Lane := s.req.s

/-- The wide operand of width 128, `w[127:0]`; the unit ignores the bits above (R21). -/
def State.wide128 (s : State) : BitVec 128 := s.req.w.setWidth 128

/-- The wide operand of width 256, `w[255:0]` (R21). -/
def State.wide256 (s : State) : BitVec 256 := s.req.w.setWidth 256

/-- The wide operand of width 512 (R21). -/
def State.wide512 (s : State) : BitVec 512 := s.req.w

/-- The buffer handed over with the request (R22). -/
def State.reqBuffer (s : State) : Buffer := s.buffer s.req.buf

/-- The kind of scalar an operation reads, if any (R55 "reads"). -/
def scalarOperand : Instr → Option ScalarKind
  | .u128FromInt => some .int
  | .u128FromUint => some .uint
  | .s128FromInt => some .int
  | .d128FromInt => some .int
  | .u256FromInt => some .int
  | .u256FromUint => some .uint
  | .s256FromInt => some .int
  | .d256FromInt => some .int
  | .u512FromInt => some .int
  | .u512FromUint => some .uint
  | .s512FromInt => some .int
  | .d512FromInt => some .int
  | .cast128US => none
  | .cast128UD => none
  | .cast128SU => none
  | .cast128SD => none
  | .cast128DU => none
  | .cast128DS => none
  | .cast256US => none
  | .cast256UD => none
  | .cast256SU => none
  | .cast256SD => none
  | .cast256DU => none
  | .cast256DS => none
  | .cast512US => none
  | .cast512UD => none
  | .cast512SU => none
  | .cast512SD => none
  | .cast512DU => none
  | .cast512DS => none
  | .dec512 => none
  | .enc512 => none
  | .dec128 => none
  | .enc128 => none
  | .dec256 => none
  | .enc256 => none

/-- The type of wide operand an operation reads, if any (R55 "reads"). -/
def wideOperandType : Instr → Option WideType
  | .u128FromInt => none
  | .u128FromUint => none
  | .s128FromInt => none
  | .d128FromInt => none
  | .u256FromInt => none
  | .u256FromUint => none
  | .s256FromInt => none
  | .d256FromInt => none
  | .u512FromInt => none
  | .u512FromUint => none
  | .s512FromInt => none
  | .d512FromInt => none
  | .cast128US => some ⟨.s, .n128⟩
  | .cast128UD => some ⟨.d, .n128⟩
  | .cast128SU => some ⟨.u, .n128⟩
  | .cast128SD => some ⟨.d, .n128⟩
  | .cast128DU => some ⟨.u, .n128⟩
  | .cast128DS => some ⟨.s, .n128⟩
  | .cast256US => some ⟨.s, .n256⟩
  | .cast256UD => some ⟨.d, .n256⟩
  | .cast256SU => some ⟨.u, .n256⟩
  | .cast256SD => some ⟨.d, .n256⟩
  | .cast256DU => some ⟨.u, .n256⟩
  | .cast256DS => some ⟨.s, .n256⟩
  | .cast512US => some ⟨.s, .n512⟩
  | .cast512UD => some ⟨.d, .n512⟩
  | .cast512SU => some ⟨.u, .n512⟩
  | .cast512SD => some ⟨.d, .n512⟩
  | .cast512DU => some ⟨.u, .n512⟩
  | .cast512DS => some ⟨.s, .n512⟩
  | .dec512 => none
  | .enc512 => some ⟨.u, .n512⟩
  | .dec128 => none
  | .enc128 => some ⟨.u, .n128⟩
  | .dec256 => none
  | .enc256 => some ⟨.u, .n256⟩

/-- The type of the wide result, if any (R55 "result"). -/
def resultType : Instr → Option WideType
  | .u128FromInt => some ⟨.u, .n128⟩
  | .u128FromUint => some ⟨.u, .n128⟩
  | .s128FromInt => some ⟨.s, .n128⟩
  | .d128FromInt => some ⟨.d, .n128⟩
  | .u256FromInt => some ⟨.u, .n256⟩
  | .u256FromUint => some ⟨.u, .n256⟩
  | .s256FromInt => some ⟨.s, .n256⟩
  | .d256FromInt => some ⟨.d, .n256⟩
  | .u512FromInt => some ⟨.u, .n512⟩
  | .u512FromUint => some ⟨.u, .n512⟩
  | .s512FromInt => some ⟨.s, .n512⟩
  | .d512FromInt => some ⟨.d, .n512⟩
  | .cast128US => some ⟨.u, .n128⟩
  | .cast128UD => some ⟨.u, .n128⟩
  | .cast128SU => some ⟨.s, .n128⟩
  | .cast128SD => some ⟨.s, .n128⟩
  | .cast128DU => some ⟨.d, .n128⟩
  | .cast128DS => some ⟨.d, .n128⟩
  | .cast256US => some ⟨.u, .n256⟩
  | .cast256UD => some ⟨.u, .n256⟩
  | .cast256SU => some ⟨.s, .n256⟩
  | .cast256SD => some ⟨.s, .n256⟩
  | .cast256DU => some ⟨.d, .n256⟩
  | .cast256DS => some ⟨.d, .n256⟩
  | .cast512US => some ⟨.u, .n512⟩
  | .cast512UD => some ⟨.u, .n512⟩
  | .cast512SU => some ⟨.s, .n512⟩
  | .cast512SD => some ⟨.s, .n512⟩
  | .cast512DU => some ⟨.d, .n512⟩
  | .cast512DS => some ⟨.d, .n512⟩
  | .dec512 => some ⟨.u, .n512⟩
  | .enc512 => none
  | .dec128 => some ⟨.u, .n128⟩
  | .enc128 => none
  | .dec256 => some ⟨.u, .n256⟩
  | .enc256 => none

/-- How many bytes of the buffer a codec reads or writes, which is also the least length it accepts (R35, R130); 0 for an
operation that touches no buffer (R30). -/
def codecBytes : Instr → Nat
  | .u128FromInt => 0
  | .u128FromUint => 0
  | .s128FromInt => 0
  | .d128FromInt => 0
  | .u256FromInt => 0
  | .u256FromUint => 0
  | .s256FromInt => 0
  | .d256FromInt => 0
  | .u512FromInt => 0
  | .u512FromUint => 0
  | .s512FromInt => 0
  | .d512FromInt => 0
  | .cast128US => 0
  | .cast128UD => 0
  | .cast128SU => 0
  | .cast128SD => 0
  | .cast128DU => 0
  | .cast128DS => 0
  | .cast256US => 0
  | .cast256UD => 0
  | .cast256SU => 0
  | .cast256SD => 0
  | .cast256DU => 0
  | .cast256DS => 0
  | .cast512US => 0
  | .cast512UD => 0
  | .cast512SU => 0
  | .cast512SD => 0
  | .cast512DU => 0
  | .cast512DS => 0
  | .dec512 => 64
  | .enc512 => 64
  | .dec128 => 16
  | .enc128 => 16
  | .dec256 => 32
  | .enc256 => 32

/-- The operation writes the buffer: the encodes (R55). -/
def isEncode : Instr → Bool
  | .u128FromInt => false
  | .u128FromUint => false
  | .s128FromInt => false
  | .d128FromInt => false
  | .u256FromInt => false
  | .u256FromUint => false
  | .s256FromInt => false
  | .d256FromInt => false
  | .u512FromInt => false
  | .u512FromUint => false
  | .s512FromInt => false
  | .d512FromInt => false
  | .cast128US => false
  | .cast128UD => false
  | .cast128SU => false
  | .cast128SD => false
  | .cast128DU => false
  | .cast128DS => false
  | .cast256US => false
  | .cast256UD => false
  | .cast256SU => false
  | .cast256SD => false
  | .cast256DU => false
  | .cast256DS => false
  | .cast512US => false
  | .cast512UD => false
  | .cast512SU => false
  | .cast512SD => false
  | .cast512DU => false
  | .cast512DS => false
  | .dec512 => false
  | .enc512 => true
  | .dec128 => false
  | .enc128 => true
  | .dec256 => false
  | .enc256 => true

end Sys2Proof.Machine
end

