-- ==== Sys2Proof/Machine/Flags.lean ====
section
/-! DEFINITION. The unit has no flag, condition code or predicate (R25): no operation computes one. What it does report is the
status of a response (R143), decided by one test. -/

namespace Sys2Proof.Machine

/-- The two-bit code of the `status` port (R21, R143). -/
def statusCode : Status → BitVec 2
  | .ok => 0#2
  | .bufShort => 1#2

/-- The length precondition (R35, R141): the buffer has fewer bytes than the operation needs. The test looks at the length
and at nothing else. -/
def tooShort (b : Buffer) (need : Nat) : Bool := decide (b.len < need)

end Sys2Proof.Machine
end

