-- ==== Sys2Proof/Machine/Codec.lean ====
section
/-! DEFINITION. The byte codec: the shared shape of a decode and an encode (R35, R101, R102, R130) and the two 512-bit
operations. A wide value lies in the buffer half by half, `Low` first (R33, R136), down to the lanes. -/

namespace Sys2Proof.Machine

/-- `U128{Low: MemRead(off, 8), High: MemRead(off+8, 8)}` (R101, R131). -/
def Buffer.readU128 (b : Buffer) (off : Nat) : Option U128 :=
  match b.memReadLane off, b.memReadLane (off + 8) with
  | some l, some h => some { low := l, high := h }
  | _, _ => none

/-- The U256 at `off`: `Low` at `off`, `High` 16 bytes on (R101, R133). -/
def Buffer.readU256 (b : Buffer) (off : Nat) : Option U256 :=
  match b.readU128 off, b.readU128 (off + 16) with
  | some l, some h => some { low := l, high := h }
  | _, _ => none

/-- The U512 at `off`: `Low` at `off`, `High` 32 bytes on (R101). -/
def Buffer.readU512 (b : Buffer) (off : Nat) : Option U512 :=
  match b.readU256 off, b.readU256 (off + 32) with
  | some l, some h => some { low := l, high := h }
  | _, _ => none

/-- `MemWrite(off, 8, x.Low); MemWrite(off+8, 8, x.High)` (R102, R132). -/
def Buffer.writeU128 (b : Buffer) (off : Nat) (x : U128) : Option Buffer :=
  match b.memWriteLane off x.low with
  | some b' => b'.memWriteLane (off + 8) x.high
  | none => none

/-- The U256 at `off`: `Low` at `off`, `High` 16 bytes on (R102, R134). -/
def Buffer.writeU256 (b : Buffer) (off : Nat) (x : U256) : Option Buffer :=
  match b.writeU128 off x.low with
  | some b' => b'.writeU128 (off + 16) x.high
  | none => none

/-- The U512 at `off`: `Low` at `off`, `High` 32 bytes on (R102). -/
def Buffer.writeU512 (b : Buffer) (off : Nat) (x : U512) : Option Buffer :=
  match b.writeU256 off x.low with
  | some b' => b'.writeU256 (off + 32) x.high
  | none => none

/-- A decode of `need` bytes: the length check first (R35, R101), then the lanes; the buffer is unchanged. -/
def decodeOp {N : Nat} (need : Nat) (read : Buffer → Option (BitVec N)) (s : State) : Host.Outcome State Fault Refusal :=
  if tooShort s.reqBuffer need then .next s.raiseBufTooShort
  else
    match read s.reqBuffer with
    | some v => .next (s.respond v)
    | none => .fault (.outsideBuffer s.reqBuffer.len)

/-- An encode of `need` bytes: a buffer the host may not write is refused (R40, U6; log entry 11); then the length check
(R35, R102), before any byte is written; then the lanes. -/
def encodeOp (need : Nat) (write : Buffer → Option Buffer) (s : State) : Host.Outcome State Fault Refusal :=
  if s.reqBuffer.writable then
    if tooShort s.reqBuffer need then .next s.raiseBufTooShort
    else
      match write s.reqBuffer with
      | some b => .next (s.setBuffer s.req.buf b).respondDone
      | none => .fault (.outsideBuffer s.reqBuffer.len)
  else .refused (.readOnlyBuffer s.req.buf)

/-- `DEC512` (R101). -/
def execDec512 (s : State) : Host.Outcome State Fault Refusal :=
  decodeOp 64 (fun b => (b.readU512 0).map U512.bits) s

/-- `ENC512` (R102). -/
def execEnc512 (s : State) : Host.Outcome State Fault Refusal :=
  encodeOp 64 (fun b => b.writeU512 0 (U512.ofBits s.wide512)) s

end Sys2Proof.Machine
end

