-- ==== Sys2Proof/Machine/Conversion.lean ====
section
/-! DEFINITION. Scalar-to-wide conversion (R70 to R84): the nine constructors of the signed and unsigned types. None can fail
(R71). -/

namespace Sys2Proof.Machine

/-- `fill <- if s[63] = 1 then ONES64 else ZERO64` (R70). -/
def signFill (s : Lane) : Lane := if s.getLsbD 63 then ones64 else zero64

/-- `U128{Low: f, High: f}`, the `f128` of R74 (its `z128` in R82). -/
def fill128 (f : Lane) : U128 := { low := f, high := f }

/-- `U256{Low: f128, High: f128}`, the `f256` of R74 (its `z256` in R82). -/
def fill256 (f : Lane) : U256 := { low := fill128 f, high := fill128 f }

/-- The scalar in lane 0 and a fill in every other lane: the records of R76 to R78 and R80 to R82. -/
def place128 (s f : Lane) : U128 := { low := s, high := f }
def place256 (s f : Lane) : U256 := { low := place128 s f, high := fill128 f }
def place512 (s f : Lane) : U512 := { low := place256 s f, high := fill256 f }

/-- The signed constructors (R72, R73, R74). -/
def s128OfInt (s : Lane) : S128 := { low := s, high := signFill s }
def s256OfInt (s : Lane) : S256 := { low := place128 s (signFill s), high := fill128 (signFill s) }
def s512OfInt (s : Lane) : S512 := { low := place256 s (signFill s), high := fill256 (signFill s) }

/-- The unsigned constructors from a signed scalar (R76, R77, R78). -/
def u128OfInt (s : Lane) : U128 := place128 s (signFill s)
def u256OfInt (s : Lane) : U256 := place256 s (signFill s)
def u512OfInt (s : Lane) : U512 := place512 s (signFill s)

/-- The unsigned constructors from an unsigned scalar (R80, R81, R82). -/
def u128OfUint (s : Lane) : U128 := place128 s zero64
def u256OfUint (s : Lane) : U256 := place256 s zero64
def u512OfUint (s : Lane) : U512 := place512 s zero64

/-- `S128.FROMINT` (R72). -/
def execS128FromInt (s : State) : Host.Outcome State Fault Refusal := .next (s.respond (s128OfInt s.scalar).bits)

/-- `S256.FROMINT` (R73). -/
def execS256FromInt (s : State) : Host.Outcome State Fault Refusal := .next (s.respond (s256OfInt s.scalar).bits)

/-- `S512.FROMINT` (R74). -/
def execS512FromInt (s : State) : Host.Outcome State Fault Refusal := .next (s.respond (s512OfInt s.scalar).bits)

/-- `U128.FROMINT` (R75, R76). -/
def execU128FromInt (s : State) : Host.Outcome State Fault Refusal := .next (s.respond (u128OfInt s.scalar).bits)

/-- `U256.FROMINT` (R75, R77). -/
def execU256FromInt (s : State) : Host.Outcome State Fault Refusal := .next (s.respond (u256OfInt s.scalar).bits)

/-- `U512.FROMINT` (R75, R78). -/
def execU512FromInt (s : State) : Host.Outcome State Fault Refusal := .next (s.respond (u512OfInt s.scalar).bits)

/-- `U128.FROMUINT` (R79, R80). -/
def execU128FromUint (s : State) : Host.Outcome State Fault Refusal := .next (s.respond (u128OfUint s.scalar).bits)

/-- `U256.FROMUINT` (R79, R81). -/
def execU256FromUint (s : State) : Host.Outcome State Fault Refusal := .next (s.respond (u256OfUint s.scalar).bits)

/-- `U512.FROMUINT` (R79, R82). -/
def execU512FromUint (s : State) : Host.Outcome State Fault Refusal := .next (s.respond (u512OfUint s.scalar).bits)

end Sys2Proof.Machine
end

