-- ==== Sys2Proof/Machine/Decimal.lean ====
section
/-! DEFINITION. The decimal aliases (R110 to R127): the three constructors, each the signed constructor reinterpreted, and the
twelve reinterpretations to and from a decimal type. No scale, rounding or range check exists (R110, R127). -/

namespace Sys2Proof.Machine

/-- `return D128` of `x.Low`, `x.High` (R115). -/
def d128OfS (x : S128) : D128 := { low := x.low, high := x.high }

/-- `return S128` of `x.Low`, `x.High` (R116). -/
def s128OfD (x : D128) : S128 := { low := x.low, high := x.high }

/-- `return D128` of `x.Low`, `x.High` (R117). -/
def d128OfU (x : U128) : D128 := { low := x.low, high := x.high }

/-- `return U128` of `x.Low`, `x.High` (R118). -/
def u128OfD (x : D128) : U128 := { low := x.low, high := x.high }

/-- `return D256` of `x.Low`, `x.High` (R119). -/
def d256OfS (x : S256) : D256 := { low := x.low, high := x.high }

/-- `return S256` of `x.Low`, `x.High` (R120). -/
def s256OfD (x : D256) : S256 := { low := x.low, high := x.high }

/-- `return D256` of `x.Low`, `x.High` (R121). -/
def d256OfU (x : U256) : D256 := { low := x.low, high := x.high }

/-- `return U256` of `x.Low`, `x.High` (R122). -/
def u256OfD (x : D256) : U256 := { low := x.low, high := x.high }

/-- `return D512` of `x.Low`, `x.High` (R123). -/
def d512OfS (x : S512) : D512 := { low := x.low, high := x.high }

/-- `return S512` of `x.Low`, `x.High` (R124). -/
def s512OfD (x : D512) : S512 := { low := x.low, high := x.high }

/-- `return D512` of `x.Low`, `x.High` (R125). -/
def d512OfU (x : U512) : D512 := { low := x.low, high := x.high }

/-- `return U512` of `x.Low`, `x.High` (R126). -/
def u512OfD (x : D512) : U512 := { low := x.low, high := x.high }

/-- The decimal constructor: the signed one and `cast_D128` (R110, R111). -/
def d128OfInt (s : Lane) : D128 := d128OfS (s128OfInt s)

/-- The decimal constructor: the signed one and `cast_D256` (R110, R112). -/
def d256OfInt (s : Lane) : D256 := d256OfS (s256OfInt s)

/-- The decimal constructor: the signed one and `cast_D512` (R110, R113). -/
def d512OfInt (s : Lane) : D512 := d512OfS (s512OfInt s)

/-- `D128.FROMINT` (R111). -/
def execD128FromInt (s : State) : Host.Outcome State Fault Refusal := .next (s.respond (S128.bits (d128OfInt s.scalar)))

/-- `D256.FROMINT` (R112). -/
def execD256FromInt (s : State) : Host.Outcome State Fault Refusal := .next (s.respond (S256.bits (d256OfInt s.scalar)))

/-- `D512.FROMINT` (R113). -/
def execD512FromInt (s : State) : Host.Outcome State Fault Refusal := .next (s.respond (S512.bits (d512OfInt s.scalar)))

/-- `CAST128.D.S`: S128 to D128 (R115). -/
def execCast128DS (s : State) : Host.Outcome State Fault Refusal :=
  .next (s.respond (S128.bits (d128OfS (S128.ofBits s.wide128))))

/-- `CAST128.S.D`: D128 to S128 (R116). -/
def execCast128SD (s : State) : Host.Outcome State Fault Refusal :=
  .next (s.respond (S128.bits (s128OfD (S128.ofBits s.wide128))))

/-- `CAST128.D.U`: U128 to D128 (R117). -/
def execCast128DU (s : State) : Host.Outcome State Fault Refusal :=
  .next (s.respond (S128.bits (d128OfU (U128.ofBits s.wide128))))

/-- `CAST128.U.D`: D128 to U128 (R118). -/
def execCast128UD (s : State) : Host.Outcome State Fault Refusal :=
  .next (s.respond (U128.bits (u128OfD (S128.ofBits s.wide128))))

/-- `CAST256.D.S`: S256 to D256 (R119). -/
def execCast256DS (s : State) : Host.Outcome State Fault Refusal :=
  .next (s.respond (S256.bits (d256OfS (S256.ofBits s.wide256))))

/-- `CAST256.S.D`: D256 to S256 (R120). -/
def execCast256SD (s : State) : Host.Outcome State Fault Refusal :=
  .next (s.respond (S256.bits (s256OfD (S256.ofBits s.wide256))))

/-- `CAST256.D.U`: U256 to D256 (R121). -/
def execCast256DU (s : State) : Host.Outcome State Fault Refusal :=
  .next (s.respond (S256.bits (d256OfU (U256.ofBits s.wide256))))

/-- `CAST256.U.D`: D256 to U256 (R122). -/
def execCast256UD (s : State) : Host.Outcome State Fault Refusal :=
  .next (s.respond (U256.bits (u256OfD (S256.ofBits s.wide256))))

/-- `CAST512.D.S`: S512 to D512 (R123). -/
def execCast512DS (s : State) : Host.Outcome State Fault Refusal :=
  .next (s.respond (S512.bits (d512OfS (S512.ofBits s.wide512))))

/-- `CAST512.S.D`: D512 to S512 (R124). -/
def execCast512SD (s : State) : Host.Outcome State Fault Refusal :=
  .next (s.respond (S512.bits (s512OfD (S512.ofBits s.wide512))))

/-- `CAST512.D.U`: U512 to D512 (R125). -/
def execCast512DU (s : State) : Host.Outcome State Fault Refusal :=
  .next (s.respond (S512.bits (d512OfU (U512.ofBits s.wide512))))

/-- `CAST512.U.D`: D512 to U512 (R126). -/
def execCast512UD (s : State) : Host.Outcome State Fault Refusal :=
  .next (s.respond (U512.bits (u512OfD (S512.ofBits s.wide512))))

end Sys2Proof.Machine
end

