-- ==== Sys2Proof/Machine/NarrowCodecs.lean ====
section
/-! DEFINITION. The optional 128-bit and 256-bit codecs (R130 to R136). They exist only in a build with `NARROW_CODECS`: in any
other the decoder reserves their words (R54, R57), so no step reaches these meanings. -/

namespace Sys2Proof.Machine

/-- `DEC128` (R131). -/
def execDec128 (s : State) : Host.Outcome State Fault Refusal :=
  decodeOp 16 (fun b => (b.readU128 0).map U128.bits) s

/-- `ENC128` (R132). -/
def execEnc128 (s : State) : Host.Outcome State Fault Refusal :=
  encodeOp 16 (fun b => b.writeU128 0 (U128.ofBits s.wide128)) s

/-- `DEC256` (R133). -/
def execDec256 (s : State) : Host.Outcome State Fault Refusal :=
  decodeOp 32 (fun b => (b.readU256 0).map U256.bits) s

/-- `ENC256` (R134). -/
def execEnc256 (s : State) : Host.Outcome State Fault Refusal :=
  encodeOp 32 (fun b => b.writeU256 0 (U256.ofBits s.wide256)) s

end Sys2Proof.Machine
end

