-- ==== Sys2Proof/Machine/Reinterpret.lean ====
section
/-! DEFINITION. Reinterpretation between the signed and the unsigned type of one width (R90 to R97): the operand with a new
type and the same lanes. None can fail, none checks a range (R90). -/

namespace Sys2Proof.Machine

/-- `return U128` of `x.Low`, `x.High` (R91). -/
def u128OfS (x : S128) : U128 := { low := x.low, high := x.high }

/-- `return S128` of `x.Low`, `x.High` (R92). -/
def s128OfU (x : U128) : S128 := { low := x.low, high := x.high }

/-- `return U256` of `x.Low`, `x.High` (R93). -/
def u256OfS (x : S256) : U256 := { low := x.low, high := x.high }

/-- `return S256` of `x.Low`, `x.High` (R94). -/
def s256OfU (x : U256) : S256 := { low := x.low, high := x.high }

/-- `return U512` of `x.Low`, `x.High` (R95). -/
def u512OfS (x : S512) : U512 := { low := x.low, high := x.high }

/-- `return S512` of `x.Low`, `x.High` (R96). -/
def s512OfU (x : U512) : S512 := { low := x.low, high := x.high }

/-- `CAST128.U.S`: S128 to U128 (R91). -/
def execCast128US (s : State) : Host.Outcome State Fault Refusal :=
  .next (s.respond (U128.bits (u128OfS (S128.ofBits s.wide128))))

/-- `CAST128.S.U`: U128 to S128 (R92). -/
def execCast128SU (s : State) : Host.Outcome State Fault Refusal :=
  .next (s.respond (S128.bits (s128OfU (U128.ofBits s.wide128))))

/-- `CAST256.U.S`: S256 to U256 (R93). -/
def execCast256US (s : State) : Host.Outcome State Fault Refusal :=
  .next (s.respond (U256.bits (u256OfS (S256.ofBits s.wide256))))

/-- `CAST256.S.U`: U256 to S256 (R94). -/
def execCast256SU (s : State) : Host.Outcome State Fault Refusal :=
  .next (s.respond (S256.bits (s256OfU (U256.ofBits s.wide256))))

/-- `CAST512.U.S`: S512 to U512 (R95). -/
def execCast512US (s : State) : Host.Outcome State Fault Refusal :=
  .next (s.respond (U512.bits (u512OfS (S512.ofBits s.wide512))))

/-- `CAST512.S.U`: U512 to S512 (R96). -/
def execCast512SU (s : State) : Host.Outcome State Fault Refusal :=
  .next (s.respond (S512.bits (s512OfU (U512.ofBits s.wide512))))

end Sys2Proof.Machine
end

