-- ==== Sys2Proof/Machine/Dispatch.lean ====
section
/-! DEFINITION. The meaning of every operation: one arm per constructor of `Instr`. -/

namespace Sys2Proof.Machine

def exec (i : Instr) (s : State) : Host.Outcome State Fault Refusal :=
  match i with
  | .u128FromInt => Sys2Proof.Machine.execU128FromInt s
  | .u128FromUint => Sys2Proof.Machine.execU128FromUint s
  | .s128FromInt => Sys2Proof.Machine.execS128FromInt s
  | .d128FromInt => Sys2Proof.Machine.execD128FromInt s
  | .u256FromInt => Sys2Proof.Machine.execU256FromInt s
  | .u256FromUint => Sys2Proof.Machine.execU256FromUint s
  | .s256FromInt => Sys2Proof.Machine.execS256FromInt s
  | .d256FromInt => Sys2Proof.Machine.execD256FromInt s
  | .u512FromInt => Sys2Proof.Machine.execU512FromInt s
  | .u512FromUint => Sys2Proof.Machine.execU512FromUint s
  | .s512FromInt => Sys2Proof.Machine.execS512FromInt s
  | .d512FromInt => Sys2Proof.Machine.execD512FromInt s
  | .cast128US => Sys2Proof.Machine.execCast128US s
  | .cast128UD => Sys2Proof.Machine.execCast128UD s
  | .cast128SU => Sys2Proof.Machine.execCast128SU s
  | .cast128SD => Sys2Proof.Machine.execCast128SD s
  | .cast128DU => Sys2Proof.Machine.execCast128DU s
  | .cast128DS => Sys2Proof.Machine.execCast128DS s
  | .cast256US => Sys2Proof.Machine.execCast256US s
  | .cast256UD => Sys2Proof.Machine.execCast256UD s
  | .cast256SU => Sys2Proof.Machine.execCast256SU s
  | .cast256SD => Sys2Proof.Machine.execCast256SD s
  | .cast256DU => Sys2Proof.Machine.execCast256DU s
  | .cast256DS => Sys2Proof.Machine.execCast256DS s
  | .cast512US => Sys2Proof.Machine.execCast512US s
  | .cast512UD => Sys2Proof.Machine.execCast512UD s
  | .cast512SU => Sys2Proof.Machine.execCast512SU s
  | .cast512SD => Sys2Proof.Machine.execCast512SD s
  | .cast512DU => Sys2Proof.Machine.execCast512DU s
  | .cast512DS => Sys2Proof.Machine.execCast512DS s
  | .dec512 => Sys2Proof.Machine.execDec512 s
  | .enc512 => Sys2Proof.Machine.execEnc512 s
  | .dec128 => Sys2Proof.Machine.execDec128 s
  | .enc128 => Sys2Proof.Machine.execEnc128 s
  | .dec256 => Sys2Proof.Machine.execDec256 s
  | .enc256 => Sys2Proof.Machine.execEnc256 s

end Sys2Proof.Machine
end

