-- ==== Sys2Proof/Machine/System.lean ====
section
/-! DEFINITION. A transaction from request to response, and the host's other moves (R21, R39, R41, R42, R160, R168 to R171). -/

namespace Sys2Proof.Machine

/-- A unit has a request outstanding (R168). -/
def State.busy (s : State) (unit : Nat) : Bool := s.inFlight.any (fun p => p.unit == unit)

/-- The operation of a transaction in progress, in this build. -/
def State.pendingInstr (s : State) (p : Pending) : Option Instr :=
  match decode s.build.narrowCodecs p.ports.op with
  | .ok i => some i
  | .error _ => none

/-- How many bytes, from offset 0, a transaction touches: none where it is no codec or its buffer is too short (R35). -/
def State.extent (s : State) (p : Pending) : Nat :=
  match s.pendingInstr p with
  | some i => if tooShort (s.buffer p.ports.buf) (codecBytes i) then 0 else codecBytes i
  | none => 0

/-- A transaction in progress is an encode. -/
def State.pendingWrites (s : State) (p : Pending) : Bool :=
  match s.pendingInstr p with
  | some i => isEncode i
  | none => false

/-- A transaction in progress is a codec operation on the buffer of a number. -/
def State.uses (s : State) (p : Pending) (buf : Nat) : Bool :=
  p.ports.buf == buf &&
    match s.pendingInstr p with
    | some i => decide (0 < codecBytes i)
    | none => false

/-- Two transactions in progress whose byte ranges overlap, at least one an encode (R42, D13; log entry 12). Both ranges start
at offset 0 of their buffers, so they overlap when the buffer is the same and neither is empty. DESIGN CHOICE, unsafe (log entry
24): only equal numbers name bytes in common, used at once or one after the other; R31, R42 and R168 leave open whether two
buffers may overlap. -/
def State.conflict (s : State) (p q : Pending) : Bool :=
  p.ports.buf == q.ports.buf && decide (0 < s.extent p) && decide (0 < s.extent q) && (s.pendingWrites p || s.pendingWrites q)

/-- What the host drives onto the `w` port (R21, R60): a pattern, or a held value with zeros above. A name it does not hold
drives nothing a `w`-reading operation could use (R170); an operation that ignores `w` does not mind (U8). -/
def State.driveWide (s : State) (i : Instr) (o : WideOperand) : Except Nat (BitVec 512) :=
  match o with
  | .port w => .ok w
  | .held name =>
    match s.value? name with
    | some v => .ok v.port
    | none => if (wideOperandType i).isSome then .error name else .ok 0#512

/-- The host presents a request to a unit (R21, R168). The operation is identified first and a reserved word refused whatever
the other ports hold (R149). -/
def issue (unit : Nat) (q : Request) (s : State) : Host.Outcome State Fault Refusal :=
  if unit < s.build.numUnits then
    if s.busy unit then .refused (.unitBusy unit)
    else
      match decode s.build.narrowCodecs q.op with
      | .error why => .refused (.reservedOp q.op why)
      | .ok i =>
        match s.driveWide i q.w with
        | .error name => .refused (.valueNotHeld name)
        | .ok w =>
          let p : Pending := { unit := unit, ports := { op := q.op, s := q.s, w := w, buf := q.buf }, dst := q.dst }
          if s.inFlight.any (fun x => s.conflict x p) then .refused (.race q.buf)
          else .next { s with inFlight := s.inFlight ++ [p] }
  else .refused (.noSuchUnit unit)

/-- The ports of a transaction in progress presented for its performance; it is in progress no longer. -/
def State.present (s : State) (p : Pending) : State :=
  { s with req := p.ports, inFlight := s.inFlight.filter (fun x => x.unit != p.unit) }

/-- The typed value of the response (R143): only with status OK, and only where the operation has a wide result (R21, R170). -/
def State.responseValue (s : State) (i : Instr) : Option WideValue :=
  match s.resp.status with
  | .ok => (resultType i).map (fun T => WideValue.ofPort T s.resp.r)
  | .bufShort => none

/-- The host takes the response (R170, R171): it keeps a value under the name it gave; where no value came the name holds none
(log entry 14). -/
def State.collect (s : State) (i : Instr) (p : Pending) : State :=
  { s with
    responses := s.responses ++ [{ unit := p.unit, status := s.resp.status, value := s.responseValue i }]
    values :=
      match p.dst with
      | none => s.values
      | some name =>
        match s.responseValue i with
        | some v => putValue s.values name v
        | none => dropValue s.values name }

/-- A unit performs its outstanding transaction and gives the response (R21, R39, R41). -/
def answer (unit : Nat) (s : State) : Host.Outcome State Fault Refusal :=
  match s.inFlight.find? (fun p => p.unit == unit) with
  | none => .refused (.unitIdle unit)
  | some p =>
    match decode s.build.narrowCodecs p.ports.op with
    | .error why => .refused (.reservedOp p.ports.op why)
    | .ok i => andThen (exec i (s.present p)) (fun t => .next (t.collect i p))

/-- The host stores a byte between its transactions (R168). Bytes 0 to 63 of a buffer in use are not the host's to touch (R39,
D13); nor is a buffer it may not write (R40). -/
def hostStore (buf off : Nat) (v : Byte) (s : State) : Host.Outcome State Fault Refusal :=
  if decide (off < 64) && s.inFlight.any (fun p => s.uses p buf) then .refused (.race buf)
  else if (s.buffer buf).writable then
    match (s.buffer buf).store off v with
    | some b => .next (s.setBuffer buf b)
    | none => .fault (.outsideBuffer off)
  else .refused (.readOnlyBuffer buf)

/-- The host copies a value it holds (R19, R168). -/
def hostCopy (dst src : Nat) (s : State) : Host.Outcome State Fault Refusal :=
  match s.value? src with
  | some v => .next { s with values := putValue s.values dst v }
  | none => .refused (.valueNotHeld src)

/-- The host brings in a further buffer (R22, R162, R168), not under a number a transaction in progress was handed. -/
def hostAddBuffer (writable : Bool) (bytes : List Byte) (s : State) : Host.Outcome State Fault Refusal :=
  if s.inFlight.any (fun p => s.uses p s.buffers.length) then .refused (.race s.buffers.length)
  else .next { s with buffers := s.buffers ++ [Buffer.ofBytes writable bytes] }

/-- A reset between transactions (R160): there is nothing to set; the response ports hold no defined value until the next
response (R161; log entry 13). In mid-transaction it is not admitted (U11). -/
def hostReset (s : State) : Host.Outcome State Fault Refusal :=
  match s.inFlight with
  | [] =>
    .next { s with
      resp := { status := if Config.freeStatus s.freeCount then .ok else .bufShort, r := Config.freeResult s.freeCount }
      freeCount := s.freeCount + 1 }
  | _ :: _ => .refused .resetInFlight

/-- One move of the host. -/
def perform (m : HostMove) (s : State) : Host.Outcome State Fault Refusal :=
  match m with
  | .issue unit q => issue unit q s
  | .answer unit => answer unit s
  | .transact unit q => andThen (issue unit q s) (answer unit)
  | .store buf off v => hostStore buf off v s
  | .copy dst src => hostCopy dst src s
  | .addBuffer writable bytes => hostAddBuffer writable bytes s
  | .reset => hostReset s

/-- What happens with no host move left. A request still outstanding is answered all the same, since every operation ends and
waits on nothing (R166); DESIGN CHOICE: oldest request first, and only once the moves are used up, where R171 leaves the order of
several units' answers open (log entry 25). With nothing outstanding the run is over (R171) and idle units hold no state (R156):
nothing changes, DEDUCED (log entry 9). -/
def drain (s : State) : Host.Outcome State Fault Refusal :=
  match s.inFlight with
  | [] => .next s
  | p :: _ => answer p.unit s

/-- The next move taken off the script and performed; with none left, the outstanding requests' answers. -/
def advance (s : State) : Host.Outcome State Fault Refusal :=
  match s.script with
  | [] => drain s
  | m :: rest => perform m { s with script := rest }

/-- The operation's word is one of the option's (R54). -/
def wordNeedsNarrow (op : BitVec 8) : Bool :=
  match decode false op, decode true op with
  | .error _, .ok _ => true
  | _, _ => false

/-- A codec's word (R54). -/
def wordUsesBuffer (op : BitVec 8) : Bool := decide (opCls op = 0b10#2)

/-- The state whose next step is a transaction of the operation word, on unit 0, with the scalar and the wide port 0. What such a
transaction needs is supplied: a build with a unit, idle, and with the option where the word is one of the option's; for a codec
a further buffer of 64 bytes (R163). Nothing else changes (log entries 2 and 8). -/
def placeRequest (s : State) (op : BitVec 8) : State :=
  { s with
    build := { narrowCodecs := s.build.narrowCodecs || wordNeedsNarrow op, numUnits := max 1 s.build.numUnits }
    inFlight := []
    buffers := if wordUsesBuffer op then s.buffers ++ [{ len := 64, writable := true, cells := [] }] else s.buffers
    script := .transact 0 { op := op, s := 0#64, w := .port 0#512, buf := s.buffers.length, dst := none } :: s.script }

end Sys2Proof.Machine
end

