-- ==== Sys2Proof/Machine/Step.lean ====
section
/-! DEFINITION. One step: the host's next move, which for a request is a whole transaction of the unit; with no move left, the
answer to a request still outstanding. -/

namespace Sys2Proof.Machine

/-- One step (R166, R171). -/
def step (s : State) : Host.Outcome State Fault Refusal := advance s

/-- The state with an instruction word, numbered as the opcode table numbers it, placed as the next request (log entry 8). The
unit has no instruction fetch (R24, R45): the word arrives on the `op` port. -/
def State.withFetchWord (s : State) (nbits w : Nat) : State := placeRequest s (BitVec.ofNat 8 (w % 2 ^ nbits))

end Sys2Proof.Machine
end

