-- ==== Sys2Proof/Safety.lean ====
section
/-! DEFINITION. What a safe state and a safe outcome are, in the terms the claims use. -/

namespace Sys2Proof.Machine

/-- What every reachable state keeps: the build has a unit (R7); the buffers are in their one form (R22, R30); and the
transactions in progress are ones the contract admits: of units that exist, one per unit (R41, R168), of operations that exist
(R57), and none overlapping another with an encode among them (R42). -/
structure State.Inv (s : State) : Prop where
  hasUnit  : 1 ≤ s.build.numUnits
  buffers  : ∀ b ∈ s.buffers, b.wf = true
  units    : ∀ p ∈ s.inFlight, p.unit < s.build.numUnits
  onePer   : s.inFlight.Pairwise (fun p q => p.unit ≠ q.unit)
  legal    : ∀ p ∈ s.inFlight, (s.pendingInstr p).isSome = true
  disjoint : s.inFlight.Pairwise (fun p q => s.conflict p q = false)

/-- The outcome is a fault: an access at an offset that does not exist. -/
def isFault (o : Host.Outcome State Fault Refusal) : Bool :=
  match o with
  | .fault _ => true
  | .next _ => false
  | .refused _ => false

/-- The name a move gives a value, if any: the only names whose values the move may change (R19). -/
def State.boundBy (s : State) (m : HostMove) : Option Nat :=
  match m with
  | .issue _ _ => none
  | .answer unit =>
    match s.inFlight.find? (fun p => p.unit == unit) with
    | some p => p.dst
    | none => none
  | .transact _ q => q.dst
  | .store _ _ _ => none
  | .copy dst _ => some dst
  | .addBuffer _ _ => none
  | .reset => none

end Sys2Proof.Machine
end

