-- ==== Sys2Proof/WellFormed.lean ====
section
/-! DEFINITION. Which operations a build of the unit has (R54, R56, R57), and which lines of a program an assembler accepts
(R60). The unit itself checks no type (R20): a step does not depend on the second. -/

namespace Sys2Proof

/-- The operation exists in a build whose parameter `NARROW_CODECS` is `narrow`: 32 operations always, the four narrow
codecs only when it is true (R2, R54, R56). -/
def Instr.wf (narrow : Bool) : Instr → Bool
  | .u128FromInt => true
  | .u128FromUint => true
  | .s128FromInt => true
  | .d128FromInt => true
  | .u256FromInt => true
  | .u256FromUint => true
  | .s256FromInt => true
  | .d256FromInt => true
  | .u512FromInt => true
  | .u512FromUint => true
  | .s512FromInt => true
  | .d512FromInt => true
  | .cast128US => true
  | .cast128UD => true
  | .cast128SU => true
  | .cast128SD => true
  | .cast128DU => true
  | .cast128DS => true
  | .cast256US => true
  | .cast256UD => true
  | .cast256SU => true
  | .cast256SD => true
  | .cast256DU => true
  | .cast256DS => true
  | .cast512US => true
  | .cast512UD => true
  | .cast512SU => true
  | .cast512SD => true
  | .cast512DU => true
  | .cast512DS => true
  | .dec512 => true
  | .enc512 => true
  | .dec128 => narrow
  | .enc128 => narrow
  | .dec256 => narrow
  | .enc256 => narrow

/-- The line's wide operand has the type the mnemonic names (R55, R60): a value the host holds of that type, or a pattern of
the host's own for the port, which has no type (R20). -/
def Machine.Request.operandTyped (values : List (Nat × WideValue)) (i : Instr) (q : Machine.Request) : Bool :=
  match Machine.wideOperandType i, q.w with
  | none, _ => true
  | some _, .port _ => true
  | some T, .held name =>
    match values.find? (fun p => p.1 == name) with
    | some p => decide (p.2.type = T)
    | none => false

/-- A line names a result only where the operation has one (R55, R60). -/
def Machine.Request.resultNamed (i : Instr) (q : Machine.Request) : Bool :=
  match Machine.resultType i, q.dst with
  | none, some _ => false
  | _, _ => true

/-- A line the assembler accepts (R60): its word is an operation of the build and its operand and result are typed. -/
def Machine.Request.wf (narrow : Bool) (values : List (Nat × WideValue)) (q : Machine.Request) : Bool :=
  match decode narrow q.op with
  | .ok i => i.wf narrow && q.operandTyped values i && q.resultNamed i
  | .error _ => false

end Sys2Proof
end

