-- ==== Sys2Proof/Certificates/Slice0/Obligations.lean ====
section
/-! DEFINITION. The statements for the provers, from the numbered rules of the spec. -/

open Sys2Proof Sys2Proof.Machine

/-! Helpers of the statements: what several instructions of one shape have in common. -/

/-- The hexadecimal column of R56's table. -/
def Sys2Proof.opcodeMap : List (BitVec 8 × Instr) :=
    [(0x00#8, .u128FromInt), (0x01#8, .u128FromUint), (0x04#8, .s128FromInt), (0x08#8, .d128FromInt), (0x10#8,
    .u256FromInt), (0x11#8, .u256FromUint), (0x14#8, .s256FromInt), (0x18#8, .d256FromInt), (0x20#8,
    .u512FromInt), (0x21#8, .u512FromUint), (0x24#8, .s512FromInt), (0x28#8, .d512FromInt)] ++
    [(0x41#8, .cast128US), (0x42#8, .cast128UD), (0x44#8, .cast128SU), (0x46#8, .cast128SD), (0x48#8,
    .cast128DU), (0x49#8, .cast128DS), (0x51#8, .cast256US), (0x52#8, .cast256UD), (0x54#8, .cast256SU),
    (0x56#8, .cast256SD), (0x58#8, .cast256DU), (0x59#8, .cast256DS), (0x61#8, .cast512US), (0x62#8,
    .cast512UD), (0x64#8, .cast512SU), (0x66#8, .cast512SD), (0x68#8, .cast512DU), (0x69#8, .cast512DS)] ++
    [(0xA0#8, .dec512), (0xA4#8, .enc512), (0x80#8, .dec128), (0x84#8, .enc128), (0x90#8, .dec256), (0x94#8,
    .enc256)]

/-- The four operations of the option `NARROW_CODECS` (R56). -/
def Sys2Proof.narrowCodecs : List Instr := [.dec128, .enc128, .dec256, .enc256]

/-- An operation that passes `w[N-1:0]` to `r[N-1:0]` under the word `op` (R55, R90): status OK, zeros above, nothing else
changed, whatever the other ports and the buffers hold. -/
def Sys2Proof.Reinterprets (i : Instr) (op : BitVec 8) (N : Nat) : Prop :=
  encode i = op ∧
    ∀ s : State, exec i s = .next { s with resp := { status := .ok, r := (s.req.w.setWidth N).setWidth 512 } }

/-- The unsigned reading of a vector against its signed reading, which the corner cases of R91 to R96 and R115 to R126 state. -/
def Sys2Proof.ReadingsAgree (N : Nat) : Prop :=
  ∀ v : BitVec N, (v.toNat : Int) = if v.msb then v.toInt + 2 ^ N else v.toInt

/-- The consistency of R84 for a family of three widths whose fill lane is `fill` of the scalar. -/
def Sys2Proof.WidthsConsistent (i128 i256 i512 : Instr) (fill : Lane → Lane) : Prop :=
  ∀ s : State, ∃ a b c : State,
    exec i128 s = .next a ∧ exec i256 s = .next b ∧ exec i512 s = .next c ∧
      b.resp.r.setWidth 128 = a.resp.r.setWidth 128 ∧ c.resp.r.setWidth 256 = b.resp.r.setWidth 256 ∧
      b.resp.r.extractLsb' 128 128 = U128.bits ⟨fill s.req.s, fill s.req.s⟩ ∧
      c.resp.r.extractLsb' 256 256 =
        U256.bits ⟨⟨fill s.req.s, fill s.req.s⟩, ⟨fill s.req.s, fill s.req.s⟩⟩

/-- Two casts of width N undo each other: the second applied to the first's result returns the operand (R97). -/
def Sys2Proof.CastsInvert (i j : Instr) (N : Nat) : Prop :=
  ∀ s : State, ∃ a b : State,
    exec i s = .next a ∧ exec j { s with req := { s.req with w := a.resp.r } } = .next b ∧
      b.resp = { status := .ok, r := (s.req.w.setWidth N).setWidth 512 }

/-- The unsigned constructor is the signed one followed by the cast (R75, R97). -/
def Sys2Proof.ConstructorIsCast (u sgn cast : Instr) : Prop :=
  ∀ s : State, ∃ a b c : State,
    exec sgn s = .next a ∧ exec cast { a with req := { a.req with w := a.resp.r } } = .next b ∧
      exec u s = .next c ∧ b.resp = c.resp

/-- What every encode of `n` bytes under the word `op` does on a buffer the host may write, the value being the low N bits of
`w` (R102, R132, R134). What it leaves of the buffers of other numbers is OnlyEncodesWriteBuffers. -/
def Sys2Proof.Encodes (i : Instr) (op : BitVec 8) (n N : Nat) : Prop :=
  encode i = op ∧
    ∀ s : State, s.reqBuffer.writable = true →
      (n ≤ s.reqBuffer.len → ∃ t : State,
        exec i s = .next t ∧ t.resp.status = .ok ∧
          (∀ a, (t.buffer s.req.buf).byte a =
            if a < n then (s.req.w.setWidth N).extractLsb' (8 * a) 8 else s.reqBuffer.byte a) ∧
          (∀ k, k < n / 8 → (t.buffer s.req.buf).memReadLane (8 * k) = some (lane (s.req.w.setWidth N) k)) ∧
          (t.buffer s.req.buf).len = s.reqBuffer.len ∧ (t.buffer s.req.buf).writable = true ∧
          t.buffers.length = s.buffers.length ∧
          t = { s with buffers := t.buffers, resp := t.resp, freeCount := t.freeCount }) ∧
      (s.reqBuffer.len < n → exec i s =
        .next { s with resp := { status := .bufShort, r := Config.freeResult s.freeCount }, freeCount := s.freeCount + 1 })

/-- What every decode of `n` bytes into N bits under the word `op` does (R101, R131, R133). -/
def Sys2Proof.Decodes (i : Instr) (op : BitVec 8) (n N : Nat) : Prop :=
  encode i = op ∧
    ∀ s : State,
      (n ≤ s.reqBuffer.len → ∃ v : BitVec N,
        exec i s = .next { s with resp := { status := .ok, r := v.setWidth 512 } } ∧
          (∀ a, a < n → v.extractLsb' (8 * a) 8 = s.reqBuffer.byte a) ∧
          (∀ k, k < n / 8 → s.reqBuffer.memReadLane (8 * k) = some (lane v k))) ∧
      (s.reqBuffer.len < n → exec i s =
        .next { s with resp := { status := .bufShort, r := Config.freeResult s.freeCount }, freeCount := s.freeCount + 1 })

/-- The result column of R55's table, by type; an encode has no result. -/
def Sys2Proof.resultColumn : List (WideType × List Instr) :=
    [(⟨.u, .n128⟩, [.u128FromInt, .u128FromUint, .cast128US, .cast128UD, .dec128]),
      (⟨.u, .n256⟩, [.u256FromInt, .u256FromUint, .cast256US, .cast256UD, .dec256]),
      (⟨.u, .n512⟩, [.u512FromInt, .u512FromUint, .cast512US, .cast512UD, .dec512]),
      (⟨.s, .n128⟩, [.s128FromInt, .cast128SU, .cast128SD]), (⟨.s, .n256⟩, [.s256FromInt, .cast256SU, .cast256SD]),
      (⟨.s, .n512⟩, [.s512FromInt, .cast512SU, .cast512SD]), (⟨.d, .n128⟩, [.d128FromInt, .cast128DU, .cast128DS]),
      (⟨.d, .n256⟩, [.d256FromInt, .cast256DU, .cast256DS]), (⟨.d, .n512⟩, [.d512FromInt, .cast512DU, .cast512DS])]

/-- The typed value of a response on the ports (R21, R55, R143): none without status OK, none for an encode. -/
def Sys2Proof.typedValue (i : Instr) (ports : RespPorts) : Option WideValue :=
  if ports.status = .ok then
    (resultColumn.find? (fun row => row.2.contains i)).map (fun row => WideValue.ofPort row.1 ports.r)
  else none

/-- What the host has of an answered request: the one response, and the value under the name it gave (R19, R60, R171). -/
def Sys2Proof.HandsOver (s t : State) (i : Instr) (unit : Nat) (dst : Option Nat) : Prop :=
  t.responses = s.responses ++ [{ unit := unit, status := t.resp.status, value := typedValue i t.resp }] ∧
    ∀ n, t.value? n = if dst = some n then typedValue i t.resp else s.value? n

/-! Encoding and the step. -/

/-- The decoder reads exactly the words of R56's table: 32 in the base configuration, 36 with the option (R56). -/
def Obligations.OpcodeMapIsTheLegalWords : Prop :=
  (∀ (narrow : Bool) (op : BitVec 8) (i : Instr),
    decode narrow op = .ok i ↔ (op, i) ∈ opcodeMap ∧ (narrow = true ∨ i ∉ narrowCodecs)) ∧
  ((List.range 256).filter fun n => (decode false (BitVec.ofNat 8 n)).isOk).length = 32 ∧
  ((List.range 256).filter fun n => (decode true (BitVec.ofNat 8 n)).isOk).length = 36

/-- A word decodes to an instruction exactly when the build has the instruction and the word is its encoding
(30_encoding.md §1, §3 (R50, R51, R56)). -/
def Obligations.DecodeAndEncodeAgree : Prop :=
  ∀ (narrow : Bool) (op : BitVec 8) (i : Instr), decode narrow op = .ok i ↔ i.wf narrow = true ∧ encode i = op

/-- Words written out field by field decode to the instructions they stand for (30_encoding.md §3, 95_test_vectors.md
§2.8). -/
def Obligations.SomeWordsReadByHand : Prop :=
  decode false 0b00100100#8 = .ok .s512FromInt ∧ decode false 0b00010001#8 = .ok .u256FromUint ∧
  decode false 0b00001000#8 = .ok .d128FromInt ∧ decode false 0b01100001#8 = .ok .cast512US ∧
  decode false 0b01001000#8 = .ok .cast128DU ∧ decode false 0b10100000#8 = .ok .dec512 ∧
  decode false 0b10100100#8 = .ok .enc512 ∧ decode true 0b10010100#8 = .ok .enc256 ∧
  decode false 0b10010100#8 = .error .narrowCodecAbsent ∧ decode false 0b00100101#8 = .error .noSuchConstructor ∧
  decode false 0b01100101#8 = .error .castToItself ∧ decode false 0b11000000#8 = .error .reservedClass

/-- A word is reserved exactly under the field conditions the encoding section lists (30_encoding.md §1, §4). -/
def Obligations.ReservedWordsByField : Prop :=
  ∀ (narrow : Bool) (op : BitVec 8), (∃ why, decode narrow op = .error why) ↔
    opCls op = 0b11#2 ∨ opWsel op = 0b11#2 ∨
    (opCls op = 0b00#2 ∧ (opA op = 0b11#2 ∨ opB op = 0b10#2 ∨ opB op = 0b11#2 ∨
      (opB op = 0b01#2 ∧ (opA op = 0b01#2 ∨ opA op = 0b10#2)))) ∨
    (opCls op = 0b01#2 ∧ (opA op = 0b11#2 ∨ opB op = 0b11#2 ∨ opA op = opB op)) ∨
    (opCls op = 0b10#2 ∧ (opA op = 0b10#2 ∨ opA op = 0b11#2 ∨ opB op ≠ 0b00#2 ∨
      (narrow = false ∧ (opWsel op = 0b00#2 ∨ opWsel op = 0b01#2))))

/-- A request with a reserved word is refused whatever its other ports and the buffers hold (as the first check: the
model's inference, log entry 17) (60_exceptions.md §3, 30_encoding.md §4, 92_eei_decisions.md D6, D20). -/
def Obligations.ReservedRequestIsRefusedFirst : Prop :=
  ∀ (s : State) (unit : Nat) (q : Request) (rest : List HostMove) (why : DecodeReject),
    s.script = .transact unit q :: rest → unit < s.build.numUnits → s.busy unit = false →
    decode s.build.narrowCodecs q.op = .error why → step s = .refused (.reservedOp q.op why)

/-- A step whose next move is a transaction runs exec of the decoded operation on the request's ports, then hands the
response over (10_state.md §3, 20_memory.md §4, 70_reset_and_hazards.md §6). -/
def Obligations.StepRunsTheDecodedOperation : Prop :=
  ∀ (s : State) (unit : Nat) (q : Request) (rest : List HostMove) (i : Instr) (w : BitVec 512),
    s.script = .transact unit q :: rest → unit < s.build.numUnits → s.busy unit = false →
    decode s.build.narrowCodecs q.op = .ok i → s.driveWide i q.w = .ok w →
    (∀ x ∈ s.inFlight, s.conflict x ⟨unit, ⟨q.op, q.s, w, q.buf⟩, q.dst⟩ = false) →
    step s =
      andThen (exec i { s with script := rest, req := ⟨q.op, q.s, w, q.buf⟩ })
        (fun t => .next (t.collect i ⟨unit, ⟨q.op, q.s, w, q.buf⟩, q.dst⟩))

/-- A request issued and then answered at once is the transaction in one move (20_memory.md §3, §4,
70_reset_and_hazards.md §5). -/
def Obligations.IssueThenAnswerIsOneTransaction : Prop :=
  ∀ (s : State) (unit : Nat) (q : Request) (rest : List HostMove),
    s.script = .issue unit q :: .answer unit :: rest →
    core.run 2 s = step { s with script := .transact unit q :: rest }

/-- Two transactions in progress may be answered in either order, with the same buffers, values and responses (no two
buffers share bytes: log entry 24) (20_memory.md §4, 60_exceptions.md §4 (R154)). -/
def Obligations.AnswersInEitherOrderAgree : Prop :=
  ∀ (s a ab : State) (u v : Nat) (p q : Pending),
    s.Inv → u ≠ v → s.inFlight.find? (fun x => x.unit == u) = some p →
    s.inFlight.find? (fun x => x.unit == v) = some q → (p.dst = none ∨ p.dst ≠ q.dst) →
    answer u s = .next a → answer v a = .next ab →
    ∃ b ba : State, answer v s = .next b ∧ answer u b = .next ba ∧
      ba.buffers = ab.buffers ∧ ba.inFlight = ab.inFlight ∧ (∀ n, ba.value? n = ab.value? n) ∧
      ∃ x y : Response, ab.responses = s.responses ++ [x, y] ∧ ba.responses = s.responses ++ [y, x]

/-- With no move left and no request outstanding nothing changes (the model's inference, log entry 9)
(70_reset_and_hazards.md §6, 60_exceptions.md §4 (R156)). -/
def Obligations.RunOverIsIdle : Prop :=
  ∀ s : State, s.script = [] → s.inFlight = [] → step s = .next s

/-! The value types. -/

/-- The value of an unsigned record is High * 2^(N/2) + Low, below 2^N, at every width (R12, R13, R14). -/
def Obligations.UnsignedRecordValues : Prop :=
  (∀ x : U128, x.bits.toNat = x.high.toNat * 2 ^ 64 + x.low.toNat ∧ x.bits.toNat < 2 ^ 128) ∧
  (∀ x : U256, x.bits.toNat = x.high.bits.toNat * 2 ^ 128 + x.low.bits.toNat ∧ x.bits.toNat < 2 ^ 256) ∧
  (∀ x : U512, x.bits.toNat = x.high.bits.toNat * 2 ^ 256 + x.low.bits.toNat ∧ x.bits.toNat < 2 ^ 512)

/-- Flattening puts Low in the low half and High in the high half, and is a bijection with the N-bit vectors (R17). -/
def Obligations.FlatteningIsABijection : Prop :=
  (∀ x : U128, x.bits.extractLsb' 0 64 = x.low ∧ x.bits.extractLsb' 64 64 = x.high ∧ U128.ofBits x.bits = x) ∧
  (∀ x : U256, x.bits.extractLsb' 0 128 = x.low.bits ∧ x.bits.extractLsb' 128 128 = x.high.bits ∧
    U256.ofBits x.bits = x) ∧
  (∀ x : U512, x.bits.extractLsb' 0 256 = x.low.bits ∧ x.bits.extractLsb' 256 256 = x.high.bits ∧
    U512.ofBits x.bits = x) ∧
  (∀ x : S128, x.bits.extractLsb' 0 64 = x.low ∧ x.bits.extractLsb' 64 64 = x.high ∧ S128.ofBits x.bits = x) ∧
  (∀ x : S256, x.bits.extractLsb' 0 128 = x.low.bits ∧ x.bits.extractLsb' 128 128 = x.high.bits ∧
    S256.ofBits x.bits = x) ∧
  (∀ x : S512, x.bits.extractLsb' 0 256 = x.low.bits ∧ x.bits.extractLsb' 256 256 = x.high.bits ∧
    S512.ofBits x.bits = x) ∧
  (∀ v : BitVec 128, (U128.ofBits v).bits = v ∧ (S128.ofBits v).bits = v) ∧
  (∀ v : BitVec 256, (U256.ofBits v).bits = v ∧ (S256.ofBits v).bits = v) ∧
  (∀ v : BitVec 512, (U512.ofBits v).bits = v ∧ (S512.ofBits v).bits = v)

/-- The lanes are the fields in the listed order, and lane k lies at buffer offsets [8k, 8k+8) (R18, R33). -/
def Obligations.LanePathsAndOffsets : Prop :=
  (∀ x : U512, lanes x.bits =
    [x.low.low.low, x.low.low.high, x.low.high.low, x.low.high.high,
      x.high.low.low, x.high.low.high, x.high.high.low, x.high.high.high]) ∧
  (∀ x : U256, lanes x.bits = [x.low.low, x.low.high, x.high.low, x.high.high]) ∧
  (∀ x : U128, lanes x.bits = [x.low, x.high]) ∧
  (∀ (b : Buffer) (x : U512), b.readU512 0 = some x → ∀ k, k < 8 → b.memReadLane (8 * k) = some (lane x.bits k)) ∧
  (∀ (b b' : Buffer) (x : U512), b.writeU512 0 x = some b' →
    ∀ k, k < 8 → b'.memReadLane (8 * k) = some (lane x.bits k))

/-- A signed record has the unsigned layout and is read in two's complement by the top bit of its topmost lane (R15). -/
def Obligations.SignedReadingOfARecord : Prop :=
  (∀ x : S128, x.bits = U128.bits ⟨x.low, x.high⟩ ∧
    x.bits.toInt = (if x.high.getLsbD 63 then (x.bits.toNat : Int) - 2 ^ 128 else (x.bits.toNat : Int)) ∧
    -2 ^ 127 ≤ x.bits.toInt ∧ x.bits.toInt ≤ 2 ^ 127 - 1) ∧
  (∀ x : S256, x.bits = U256.bits ⟨x.low, x.high⟩ ∧
    x.bits.toInt = (if x.high.high.getLsbD 63 then (x.bits.toNat : Int) - 2 ^ 256 else (x.bits.toNat : Int)) ∧
    -2 ^ 255 ≤ x.bits.toInt ∧ x.bits.toInt ≤ 2 ^ 255 - 1) ∧
  (∀ x : S512, x.bits = U512.bits ⟨x.low, x.high⟩ ∧
    x.bits.toInt = (if x.high.high.high.getLsbD 63 then (x.bits.toNat : Int) - 2 ^ 512 else (x.bits.toNat : Int)) ∧
    -2 ^ 511 ≤ x.bits.toInt ∧ x.bits.toInt ≤ 2 ^ 511 - 1)

/-! Conversion. Each result is also the instruction's completion, and its frame: the whole next state is given. -/

/-- S{N}.FROMINT: the scalar in lane 0, its sign bit filling every other lane, the signed value kept (R70, R72, R73, R74). -/
def Obligations.SignedConstructors : Prop :=
  ∀ s : State,
    let f : Lane := if s.req.s.getLsbD 63 then ones64 else zero64
    let a : S128 := ⟨s.req.s, f⟩
    let b : S256 := ⟨⟨s.req.s, f⟩, ⟨f, f⟩⟩
    let c : S512 := ⟨⟨⟨s.req.s, f⟩, ⟨f, f⟩⟩, ⟨⟨f, f⟩, ⟨f, f⟩⟩⟩
    encode .s128FromInt = 0x04#8 ∧
    encode .s256FromInt = 0x14#8 ∧
    encode .s512FromInt = 0x24#8 ∧
    exec .s128FromInt s = .next { s with resp := { status := .ok, r := a.bits.setWidth 512 } } ∧
    exec .s256FromInt s = .next { s with resp := { status := .ok, r := b.bits.setWidth 512 } } ∧
    exec .s512FromInt s = .next { s with resp := { status := .ok, r := c.bits.setWidth 512 } } ∧
    a.bits = s.req.s.signExtend 128 ∧
    b.bits = s.req.s.signExtend 256 ∧
    c.bits = s.req.s.signExtend 512 ∧
    a.bits.toInt = s.req.s.toInt ∧
    b.bits.toInt = s.req.s.toInt ∧
    c.bits.toInt = s.req.s.toInt

/-- U{N}.FROMINT: the signed result with its type changed and no bit changed (R75, R76, R77, R78). -/
def Obligations.UnsignedConstructorsFromSigned : Prop :=
  ∀ s : State,
    let f : Lane := if s.req.s.getLsbD 63 then ones64 else zero64
    let a : U128 := ⟨s.req.s, f⟩
    let b : U256 := ⟨⟨s.req.s, f⟩, ⟨f, f⟩⟩
    let c : U512 := ⟨⟨⟨s.req.s, f⟩, ⟨f, f⟩⟩, ⟨⟨f, f⟩, ⟨f, f⟩⟩⟩
    encode .u128FromInt = 0x00#8 ∧
    encode .u256FromInt = 0x10#8 ∧
    encode .u512FromInt = 0x20#8 ∧
    exec .u128FromInt s = .next { s with resp := { status := .ok, r := a.bits.setWidth 512 } } ∧
    exec .u256FromInt s = .next { s with resp := { status := .ok, r := b.bits.setWidth 512 } } ∧
    exec .u512FromInt s = .next { s with resp := { status := .ok, r := c.bits.setWidth 512 } } ∧
    a.bits = s.req.s.signExtend 128 ∧
    b.bits = s.req.s.signExtend 256 ∧
    c.bits = s.req.s.signExtend 512 ∧
    (a.bits.toNat : Int) = (if s.req.s.toInt < 0 then 2 ^ 128 + s.req.s.toInt else s.req.s.toInt) ∧
    (b.bits.toNat : Int) = (if s.req.s.toInt < 0 then 2 ^ 256 + s.req.s.toInt else s.req.s.toInt) ∧
    (c.bits.toNat : Int) = (if s.req.s.toInt < 0 then 2 ^ 512 + s.req.s.toInt else s.req.s.toInt) ∧
    exec .u128FromInt s = exec .s128FromInt s ∧
    exec .u256FromInt s = exec .s256FromInt s ∧
    exec .u512FromInt s = exec .s512FromInt s

/-- U{N}.FROMUINT: the scalar in lane 0 and zero in every other lane, whatever its bit 63 (R79, R80, R81, R82). -/
def Obligations.UnsignedConstructorsFromUnsigned : Prop :=
  ∀ s : State,
    let f : Lane := zero64
    let a : U128 := ⟨s.req.s, f⟩
    let b : U256 := ⟨⟨s.req.s, f⟩, ⟨f, f⟩⟩
    let c : U512 := ⟨⟨⟨s.req.s, f⟩, ⟨f, f⟩⟩, ⟨⟨f, f⟩, ⟨f, f⟩⟩⟩
    encode .u128FromUint = 0x01#8 ∧
    encode .u256FromUint = 0x11#8 ∧
    encode .u512FromUint = 0x21#8 ∧
    exec .u128FromUint s = .next { s with resp := { status := .ok, r := a.bits.setWidth 512 } } ∧
    exec .u256FromUint s = .next { s with resp := { status := .ok, r := b.bits.setWidth 512 } } ∧
    exec .u512FromUint s = .next { s with resp := { status := .ok, r := c.bits.setWidth 512 } } ∧
    a.bits = s.req.s.setWidth 128 ∧
    b.bits = s.req.s.setWidth 256 ∧
    c.bits = s.req.s.setWidth 512 ∧
    a.bits.toNat = s.req.s.toNat ∧
    b.bits.toNat = s.req.s.toNat ∧
    c.bits.toNat = s.req.s.toNat

/-- D{N}.FROMINT: the signed constructor's record, the unscaled value being the scalar (R111, R112, R113). -/
def Obligations.DecimalConstructors : Prop :=
  ∀ s : State,
    let f : Lane := if s.req.s.getLsbD 63 then ones64 else zero64
    let a : S128 := ⟨s.req.s, f⟩
    let b : S256 := ⟨⟨s.req.s, f⟩, ⟨f, f⟩⟩
    let c : S512 := ⟨⟨⟨s.req.s, f⟩, ⟨f, f⟩⟩, ⟨⟨f, f⟩, ⟨f, f⟩⟩⟩
    encode .d128FromInt = 0x08#8 ∧
    encode .d256FromInt = 0x18#8 ∧
    encode .d512FromInt = 0x28#8 ∧
    exec .d128FromInt s = .next { s with resp := { status := .ok, r := a.bits.setWidth 512 } } ∧
    exec .d256FromInt s = .next { s with resp := { status := .ok, r := b.bits.setWidth 512 } } ∧
    exec .d512FromInt s = .next { s with resp := { status := .ok, r := c.bits.setWidth 512 } } ∧
    a.bits = s.req.s.signExtend 128 ∧
    b.bits = s.req.s.signExtend 256 ∧
    c.bits = s.req.s.signExtend 512 ∧
    a.bits.toInt = s.req.s.toInt ∧
    b.bits.toInt = s.req.s.toInt ∧
    c.bits.toInt = s.req.s.toInt ∧
    exec .d128FromInt s = exec .s128FromInt s ∧
    exec .d256FromInt s = exec .s256FromInt s ∧
    exec .d512FromInt s = exec .s512FromInt s

/-- Every conversion completes with OK for every scalar, from the scalar alone, changing nothing else (R71). -/
def Obligations.ConversionIsTotalAndReadsOnlyTheScalar : Prop :=
  ∀ i : Instr, (scalarOperand i).isSome = true →
    ∃ f : Lane → BitVec 512, ∀ s : State, exec i s = .next { s with resp := { status := .ok, r := f s.req.s } }

/-- The narrower result is the low half of the wider one, and the high half is pure fill (R84). -/
def Obligations.ConversionsAgreeAcrossWidths : Prop :=
  WidthsConsistent .s128FromInt .s256FromInt .s512FromInt (fun s => if s.getLsbD 63 then ones64 else zero64) ∧
  WidthsConsistent .u128FromInt .u256FromInt .u512FromInt (fun s => if s.getLsbD 63 then ones64 else zero64) ∧
  WidthsConsistent .u128FromUint .u256FromUint .u512FromUint (fun _ => zero64)

/-! Reinterpretation. -/

/-- The six casts between signed and unsigned pass w[N-1:0] to r[N-1:0], with OK and nothing else changed (R90, R91, R92,
R93, R94, R95, R96). -/
def Obligations.SignedUnsignedCastsKeepTheBits : Prop :=
  Reinterprets .cast128US 0x41#8 128 ∧
  Reinterprets .cast128SU 0x44#8 128 ∧
  Reinterprets .cast256US 0x51#8 256 ∧
  Reinterprets .cast256SU 0x54#8 256 ∧
  Reinterprets .cast512US 0x61#8 512 ∧
  Reinterprets .cast512SU 0x64#8 512 ∧
  ReadingsAgree 128 ∧ ReadingsAgree 256 ∧ ReadingsAgree 512

/-- The twelve casts to and from a decimal type pass w[N-1:0] to r[N-1:0], with OK and nothing else changed (R115, R116,
R117, R118, R119, R120, R121, R122, R123, R124, R125, R126). -/
def Obligations.DecimalCastsKeepTheBits : Prop :=
  Reinterprets .cast128UD 0x42#8 128 ∧
  Reinterprets .cast128SD 0x46#8 128 ∧
  Reinterprets .cast128DU 0x48#8 128 ∧
  Reinterprets .cast128DS 0x49#8 128 ∧
  Reinterprets .cast256UD 0x52#8 256 ∧
  Reinterprets .cast256SD 0x56#8 256 ∧
  Reinterprets .cast256DU 0x58#8 256 ∧
  Reinterprets .cast256DS 0x59#8 256 ∧
  Reinterprets .cast512UD 0x62#8 512 ∧
  Reinterprets .cast512SD 0x66#8 512 ∧
  Reinterprets .cast512DU 0x68#8 512 ∧
  Reinterprets .cast512DS 0x69#8 512 ∧
  ReadingsAgree 128 ∧ ReadingsAgree 256 ∧ ReadingsAgree 512

/-- The two casts of a width undo each other, and U{N}.FROMINT is the cast of S{N}.FROMINT (R97). -/
def Obligations.CastsInvertEachOther : Prop :=
  CastsInvert .cast128US .cast128SU 128 ∧ CastsInvert .cast128SU .cast128US 128 ∧
  CastsInvert .cast256US .cast256SU 256 ∧ CastsInvert .cast256SU .cast256US 256 ∧
  CastsInvert .cast512US .cast512SU 512 ∧ CastsInvert .cast512SU .cast512US 512 ∧
  ConstructorIsCast .u128FromInt .s128FromInt .cast128US ∧
  ConstructorIsCast .u256FromInt .s256FromInt .cast256US ∧
  ConstructorIsCast .u512FromInt .s512FromInt .cast512US ∧
  (∀ v : BitVec 128, (v.toNat : Int) = v.toInt % 2 ^ 128) ∧ (∀ v : BitVec 256, (v.toNat : Int) = v.toInt % 2 ^ 256) ∧
  (∀ v : BitVec 512, (v.toNat : Int) = v.toInt % 2 ^ 512)

/-! The codecs. -/

/-- DEC512: the 64 bytes of a long enough buffer, little-endian lane by lane; BUF_SHORT below 64 bytes (R101). -/
def Obligations.DecodeOf512Bits : Prop :=
  Decodes .dec512 0xA0#8 64 512

/-- ENC512: the value's 64 bytes at offsets 0 to 63 and no other byte; BUF_SHORT and no write below 64 bytes (R102). -/
def Obligations.EncodeOf512Bits : Prop :=
  Encodes .enc512 0xA4#8 64 512

/-- DEC128 and DEC256: the 512-bit decode's analogue at 16 and 32 bytes (R131, R133). -/
def Obligations.NarrowDecodes : Prop :=
  Decodes .dec128 0x80#8 16 128 ∧ Decodes .dec256 0x90#8 32 256

/-- ENC128 and ENC256: the 512-bit encode's analogue at 16 and 32 bytes (R132, R134). -/
def Obligations.NarrowEncodes : Prop :=
  Encodes .enc128 0x84#8 16 128 ∧ Encodes .enc256 0x94#8 32 256

/-- A codec on a short buffer ends with BUF_SHORT and does nothing else; on a long enough one it never fails (R35, R144). -/
def Obligations.ShortBufferEndsTheOperation : Prop :=
  ∀ (i : Instr) (s : State), (isEncode i = true → s.reqBuffer.writable = true) →
    (s.reqBuffer.len < codecBytes i → exec i s =
      .next { s with resp := { status := .bufShort, r := Config.freeResult s.freeCount }, freeCount := s.freeCount + 1 }) ∧
    (codecBytes i ≤ s.reqBuffer.len → ∃ t : State, exec i s = .next t ∧ t.resp.status = .ok)

/-- A response's status is BUF_SHORT exactly when the operation is a codec and the buffer is too short (R143). -/
def Obligations.StatusReportsTheErrorExactly : Prop :=
  (∀ (i : Instr) (s t : State), exec i s = .next t →
    (t.resp.status = .bufShort ↔ s.reqBuffer.len < codecBytes i)) ∧
  (∀ i : Instr, codecBytes i =
    if i = .dec512 ∨ i = .enc512 then 64 else if i = .dec128 ∨ i = .enc128 then 16
    else if i = .dec256 ∨ i = .enc256 then 32 else 0) ∧
  statusCode .ok = 0#2 ∧ statusCode .bufShort = 1#2 ∧ (∀ st : Status, statusCode st = 0#2 ∨ statusCode st = 1#2)

/-- Decode after encode returns the value, whatever happened in between to anything but the 64 bytes (R103). -/
def Obligations.EncodeThenDecodeReturnsTheValue : Prop :=
  ∀ s : State, s.reqBuffer.writable = true → 64 ≤ s.reqBuffer.len →
    ∃ t : State, exec .enc512 s = .next t ∧ t.resp.status = .ok ∧
      ∀ c : State, 64 ≤ c.reqBuffer.len → (∀ a, a < 64 → c.reqBuffer.byte a = (t.buffer s.req.buf).byte a) →
        exec .dec512 c = .next { c with resp := { status := .ok, r := s.req.w } }

/-- Encode after decode reproduces bytes 0 to 63 (R104). -/
def Obligations.DecodeThenEncodeReproducesTheBytes : Prop :=
  ∀ s : State, 64 ≤ s.reqBuffer.len →
    ∃ t : State, exec .dec512 s = .next t ∧ t.resp.status = .ok ∧
      ∀ c : State, c.reqBuffer.writable = true → 64 ≤ c.reqBuffer.len → c.req.w = t.resp.r →
        ∃ d : State, exec .enc512 c = .next d ∧ d.resp.status = .ok ∧
          ∀ a, a < 64 → (d.buffer c.req.buf).byte a = s.reqBuffer.byte a

/-- The narrow codecs obey both round-trip laws at 16 and 32 bytes (R135). -/
def Obligations.NarrowCodecsRoundTrip : Prop :=
  (∀ s : State, s.reqBuffer.writable = true → 16 ≤ s.reqBuffer.len →
    ∃ t : State, exec .enc128 s = .next t ∧ t.resp.status = .ok ∧
      ∀ c : State, 16 ≤ c.reqBuffer.len → (∀ a, a < 16 → c.reqBuffer.byte a = (t.buffer s.req.buf).byte a) →
        exec .dec128 c = .next { c with resp := { status := .ok, r := (s.req.w.setWidth 128).setWidth 512 } }) ∧
  (∀ s : State, 16 ≤ s.reqBuffer.len →
    ∃ t : State, exec .dec128 s = .next t ∧ t.resp.status = .ok ∧
      ∀ c : State, c.reqBuffer.writable = true → 16 ≤ c.reqBuffer.len → c.req.w = t.resp.r →
        ∃ d : State, exec .enc128 c = .next d ∧ d.resp.status = .ok ∧
          ∀ a, a < 16 → (d.buffer c.req.buf).byte a = s.reqBuffer.byte a) ∧
  (∀ s : State, s.reqBuffer.writable = true → 32 ≤ s.reqBuffer.len →
    ∃ t : State, exec .enc256 s = .next t ∧ t.resp.status = .ok ∧
      ∀ c : State, 32 ≤ c.reqBuffer.len → (∀ a, a < 32 → c.reqBuffer.byte a = (t.buffer s.req.buf).byte a) →
        exec .dec256 c = .next { c with resp := { status := .ok, r := (s.req.w.setWidth 256).setWidth 512 } }) ∧
  (∀ s : State, 32 ≤ s.reqBuffer.len →
    ∃ t : State, exec .dec256 s = .next t ∧ t.resp.status = .ok ∧
      ∀ c : State, c.reqBuffer.writable = true → 32 ≤ c.reqBuffer.len → c.req.w = t.resp.r →
        ∃ d : State, exec .enc256 c = .next d ∧ d.resp.status = .ok ∧
          ∀ a, a < 32 → (d.buffer c.req.buf).byte a = s.reqBuffer.byte a)

/-- A longer buffer is accepted; bytes from offset 64 on are neither read by a decode nor written by an encode (R36). -/
def Obligations.BytesFrom64OnPlayNoPart : Prop :=
  (∀ s t : State, 64 ≤ s.reqBuffer.len → 64 ≤ t.reqBuffer.len →
    (∀ a, a < 64 → s.reqBuffer.byte a = t.reqBuffer.byte a) →
    ∃ v : BitVec 512, exec .dec512 s = .next { s with resp := { status := .ok, r := v } } ∧
      exec .dec512 t = .next { t with resp := { status := .ok, r := v } }) ∧
  (∀ s : State, s.reqBuffer.writable = true → 64 ≤ s.reqBuffer.len →
    ∃ t : State, exec .enc512 s = .next t ∧ t.resp.status = .ok ∧ (t.buffer s.req.buf).len = s.reqBuffer.len ∧
      ∀ a, 64 ≤ a → (t.buffer s.req.buf).byte a = s.reqBuffer.byte a)

/-- The 64-byte image is the value as one little-endian integer, and mixed-width views see the same bytes (R34). -/
def Obligations.ImageIsOneLittleEndianInteger : Prop :=
  (∀ (b : Buffer) (x : U512), b.readU512 0 = some x →
    x.bits.toNat = ((List.range 64).map fun i => (b.byte i).toNat * 2 ^ (8 * i)).sum ∧
    b.readU128 0 = some x.low.low ∧ b.readU256 32 = some x.high) ∧
  (∀ (b b' : Buffer) (x : U512), b.writeU512 0 x = some b' →
    (∀ i, i < 64 → b'.byte i = x.bits.extractLsb' (8 * i) 8) ∧
    x.bits.toNat = ((List.range 64).map fun i => (b'.byte i).toNat * 2 ^ (8 * i)).sum)

/-- The image of a value is the image of its Low followed by the image of its High (R136). -/
def Obligations.ImagesNestLowThenHigh : Prop :=
  (∀ (b b' c c' d d' : Buffer) (x : U512), b.writeU512 0 x = some b' → c.writeU256 0 x.low = some c' →
    d.writeU256 0 x.high = some d' → ∀ i, i < 32 → b'.byte i = c'.byte i ∧ b'.byte (32 + i) = d'.byte i) ∧
  (∀ (b b' c c' d d' : Buffer) (x : U256), b.writeU256 0 x = some b' → c.writeU128 0 x.low = some c' →
    d.writeU128 0 x.high = some d' → ∀ i, i < 16 → b'.byte i = c'.byte i ∧ b'.byte (16 + i) = d'.byte i)

/-- Encoding the same value twice leaves the same buffers as data, and a decode changes no buffer and repeats its value
(20_memory.md §3 (R39)). -/
def Obligations.EncodeIsIdempotentDecodeReadsOnly : Prop :=
  (∀ s a b : State, s.reqBuffer.wf = true → exec .enc512 s = .next a → exec .enc512 a = .next b →
    b.buffers = a.buffers) ∧
  (∀ s a b : State, exec .dec512 s = .next a → exec .dec512 a = .next b →
    a.buffers = s.buffers ∧ (a.resp.status = .ok → b.resp = a.resp))

/-- An encode into a buffer the host may not write has no step (whatever its length: the model's choice, log entry 11)
(20_memory.md §3 (R40), 93_implementation_defined.md U6). -/
def Obligations.ReadOnlyEncodeIsRefused : Prop :=
  ∀ (i : Instr) (s : State), isEncode i = true → s.reqBuffer.writable = false →
    exec i s = .refused (.readOnlyBuffer s.req.buf)

/-- Two buffers in canonical form with the same length, mark and bytes are the same data (the form is the model's choice,
log entry 7) (10_state.md §3 (R22), 20_memory.md §1). -/
def Obligations.CanonicalBuffersAreUnique : Prop :=
  ∀ b c : Buffer, b.wf = true → c.wf = true → b.len = c.len → b.writable = c.writable →
    (∀ a, a < b.len → b.byte a = c.byte a) → b = c

/-! The whole machine. -/

/-- At reset nothing is in progress and no response given; the base build. THE MODEL'S CHOICE, not the spec's: that the
host holds no value (log entry 1), the port values (5 and 6), one unit (3), no buffer (7) and the empty script, so
that a step changes nothing (8, 9) (70_reset_and_hazards.md §1, 10_state.md §5). -/
def Obligations.ResetHoldsNothing : Prop :=
  State.reset.inFlight = [] ∧ State.reset.responses = [] ∧ State.reset.values = [] ∧ State.reset.buffers = [] ∧
  State.reset.script = [] ∧ State.reset.build.narrowCodecs = false ∧ State.reset.build.numUnits = 1 ∧
  step State.reset = .next State.reset

/-- The invariant holds at reset (70_reset_and_hazards.md §1). -/
def Obligations.ResetMeetsTheInvariant : Prop :=
  State.reset.Inv

/-- Every step keeps the invariant: canonical buffers, one legal transaction per existing unit, none overlapping another
unlawfully (20_memory.md §1, §4, 10_state.md §3, 30_encoding.md §4, 70_reset_and_hazards.md §5). -/
def Obligations.EveryStepKeepsTheInvariant : Prop :=
  ∀ s t : State, s.Inv → step s = .next t → t.Inv

/-- The frame of every operation: only the response, and an encode's bytes, change (no buffer shares bytes with another:
log entry 24) (10_state.md §1 (R10), 42_codec512.md §3 (R106)). -/
def Obligations.OnlyEncodesWriteBuffers : Prop :=
  ∀ (i : Instr) (s t : State), exec i s = .next t →
    t = { s with resp := t.resp, buffers := t.buffers, freeCount := t.freeCount } ∧
    t.buffers.length = s.buffers.length ∧
    (∀ k, (t.buffer k).len = (s.buffer k).len ∧ (t.buffer k).writable = (s.buffer k).writable) ∧
    (∀ k, k ≠ s.req.buf → t.buffer k = s.buffer k) ∧
    ∀ k a, isEncode i = false ∨ k ≠ s.req.buf ∨ s.reqBuffer.len < codecBytes i ∨ codecBytes i ≤ a →
      (t.buffer k).byte a = (s.buffer k).byte a

/-- The response, and an encode's bytes, depend only on the ports the operation reads (10_state.md §1, §3,
93_implementation_defined.md U8). -/
def Obligations.ResponseDependsOnItsOperandsOnly : Prop :=
  ∀ (i : Instr) (s t s' : State),
    ((scalarOperand i).isSome = true → s.req.s = t.req.s) →
    (∀ T, wideOperandType i = some T →
      s.req.w.setWidth (widthBits T.width) = t.req.w.setWidth (widthBits T.width)) →
    (0 < codecBytes i → s.reqBuffer.len = t.reqBuffer.len) →
    (isEncode i = true → s.reqBuffer.writable = t.reqBuffer.writable) →
    (isEncode i = false → ∀ a, a < codecBytes i → s.reqBuffer.byte a = t.reqBuffer.byte a) →
    exec i s = .next s' →
    ∃ t' : State, exec i t = .next t' ∧ t'.resp.status = s'.resp.status ∧
      (s'.resp.status = .ok → (resultType i).isSome = true → t'.resp.r = s'.resp.r) ∧
      (s'.resp.status = .ok → isEncode i = true →
        ∀ a, a < codecBytes i → (t'.buffer t.req.buf).byte a = (s'.buffer s.req.buf).byte a)

/-- Every operation on every operands gives a response, a read-only encode apart (70_reset_and_hazards.md §3 (R166)). -/
def Obligations.EveryOperationEnds : Prop :=
  ∀ (i : Instr) (s : State), (isEncode i = true → s.reqBuffer.writable = true) → ∃ t : State, exec i s = .next t

/-- No operation ever faults: a step faults only on a host store beyond its buffer (that fault is the model's, log entry
16) (60_exceptions.md §1 (R141, R142), 20_memory.md §1). -/
def Obligations.OnlyAHostStoreFaults : Prop :=
  ∀ (s : State) (f : Fault), step s = .fault f →
    ∃ buf off v rest, s.script = .store buf off v :: rest ∧ (s.buffer buf).len ≤ off ∧ f = .outsideBuffer off

/-- After BUF_SHORT the next request is served exactly as if the failed one had not been made (R146). -/
def Obligations.TheErrorIsNotSticky : Prop :=
  ∀ (i j : Instr) (s t s' : State) (q : ReqPorts),
    exec i s = .next t → t.resp.status = .bufShort → exec j { s with req := q } = .next s' →
    t = { s with resp := t.resp, freeCount := t.freeCount } ∧
    ∃ t' : State, exec j { t with req := q } = .next t' ∧ t'.buffers = s'.buffers ∧
      t'.resp.status = s'.resp.status ∧
      (s'.resp.status = .ok → (resultType j).isSome = true → t'.resp.r = s'.resp.r)

/-- No step changes a parameter of the build (10_state.md §4 (R26), 00_scope.md §3 (R7)). -/
def Obligations.TheBuildNeverChanges : Prop :=
  ∀ s t : State, step s = .next t → t.build = s.build

/-- A step changes no value the host holds except under the one name it binds (the model's: which name, log entry 14;
whose answer with no move left, 25) (10_state.md §2 (R19), 70_reset_and_hazards.md §3 (R165)). -/
def Obligations.HeldValuesAreNeverChanged : Prop :=
  (∀ (s t : State) (m : HostMove) (rest : List HostMove) (n : Nat),
    s.script = m :: rest → step s = .next t → s.boundBy m ≠ some n → t.value? n = s.value? n) ∧
  (∀ (s t : State) (n : Nat), s.script = [] → step s = .next t →
    (∀ p, s.inFlight.head? = some p → p.dst ≠ some n) → t.value? n = s.value? n)

/-- Each answer appends one response, its value of R55's type, and binds its name to it (log entries 14, 25, 27); no other
move appends one (10_state.md §2 (R19), §3 (R21), 30_encoding.md §2 (R55), §6 (R60), 60_exceptions.md §2 (R143, R145),
70_reset_and_hazards.md §6 (R171)). -/
def Obligations.EachTransactionGivesOneResponse : Prop :=
  (∀ (s t : State) (m : HostMove) (rest : List HostMove), s.script = m :: rest → step s = .next t →
    match m with
    | .answer unit => ∃ p i, s.inFlight.find? (fun x => x.unit == unit) = some p ∧
      decode s.build.narrowCodecs p.ports.op = .ok i ∧ HandsOver s t i unit p.dst
    | .transact unit q => ∃ i, decode s.build.narrowCodecs q.op = .ok i ∧ HandsOver s t i unit q.dst
    | .issue _ _ | .store _ _ _ | .copy _ _ | .addBuffer _ _ | .reset => t.responses = s.responses) ∧
  (∀ (s t : State) (p : Pending) (ps : List Pending), s.script = [] → s.inFlight = p :: ps → step s = .next t →
    ∃ i, decode s.build.narrowCodecs p.ports.op = .ok i ∧ HandsOver s t i p.unit p.dst)

/-- Concurrent transactions on overlapping bytes with an encode among them, and a host store under a codec, have no step
(refused: log entry 12; same number: 24) (20_memory.md §3, §4 (R39, R42), 92_eei_decisions.md D13,
93_implementation_defined.md U9). -/
def Obligations.OverlappingUseIsRefused : Prop :=
  (∀ (s : State) (unit : Nat) (q : Request) (i j : Instr) (w : BitVec 512) (x : Pending),
    unit < s.build.numUnits → s.busy unit = false → decode s.build.narrowCodecs q.op = .ok i →
    s.driveWide i q.w = .ok w → x ∈ s.inFlight → decode s.build.narrowCodecs x.ports.op = .ok j →
    x.ports.buf = q.buf → 0 < codecBytes i → 0 < codecBytes j → codecBytes i ≤ (s.buffer q.buf).len →
    codecBytes j ≤ (s.buffer q.buf).len → (isEncode i = true ∨ isEncode j = true) →
    issue unit q s = .refused (.race q.buf)) ∧
  (∀ (s : State) (off : Nat) (v : Byte) (j : Instr) (x : Pending),
    x ∈ s.inFlight → decode s.build.narrowCodecs x.ports.op = .ok j → 0 < codecBytes j → off < 64 →
    hostStore x.ports.buf off v s = .refused (.race x.ports.buf))

/-- A reset between transactions leaves buffers, values and responses alone; in mid-transaction it has no step (the
model's form: log entry 13) (70_reset_and_hazards.md §1 (R160, R161, R162), 93_implementation_defined.md U11). -/
def Obligations.ResetBetweenTransactionsChangesOnlyThePorts : Prop :=
  ∀ (s : State) (rest : List HostMove), s.script = .reset :: rest →
    (s.inFlight = [] → ∃ ports : RespPorts,
      step s = .next { s with script := rest, resp := ports, freeCount := s.freeCount + 1 }) ∧
    (s.inFlight ≠ [] → step s = .refused .resetInFlight)

/-- A host store, copy and new buffer complete with their one effect (log entry 12: when refused; 24: no two buffers share
bytes; 27: a name given twice) (70_reset_and_hazards.md §5 (R168), 10_state.md §3 (R22)). -/
def Obligations.HostMovesDoWhatTheHostMayDo : Prop :=
  (∀ (s : State) (buf off : Nat) (v : Byte), (∀ x ∈ s.inFlight, s.uses x buf = false) →
    (s.buffer buf).writable = true → off < (s.buffer buf).len →
    ∃ t : State, hostStore buf off v s = .next t ∧ t = { s with buffers := t.buffers } ∧
      (∀ k, (t.buffer k).len = (s.buffer k).len ∧ (t.buffer k).writable = (s.buffer k).writable) ∧
      ∀ k a, (t.buffer k).byte a = if k = buf ∧ a = off then v else (s.buffer k).byte a) ∧
  (∀ (s : State) (dst src : Nat) (v : WideValue), s.value? src = some v →
    ∃ t : State, hostCopy dst src s = .next t ∧ t = { s with values := t.values } ∧
      ∀ n, t.value? n = if n = dst then some v else s.value? n) ∧
  (∀ (s : State) (w : Bool) (bytes : List Byte), (∀ x ∈ s.inFlight, s.uses x s.buffers.length = false) →
    ∃ t : State, hostAddBuffer w bytes s = .next t ∧ t = { s with buffers := t.buffers } ∧
      (∀ k, k ≠ s.buffers.length → t.buffer k = s.buffer k) ∧
      (t.buffer s.buffers.length).len = bytes.length ∧ (t.buffer s.buffers.length).writable = w ∧
      ∀ a, (t.buffer s.buffers.length).byte a = bytes.getD a 0#8)

/-- A held U512 encoded into a buffer by one transaction comes back from the next as the same value (log entries 15:
operand not held; 27: name reused) (42_codec512.md §3 (R103), 95_test_vectors.md S7, 20_memory.md §4 (R41)). -/
def Obligations.AHeldValueSurvivesTheWire : Prop :=
  ∀ (s : State) (unit k n d : Nat) (sc sc' : Lane) (o : WideOperand) (x : U512) (rest : List HostMove),
    s.inFlight = [] → unit < s.build.numUnits → (s.buffer k).writable = true → 64 ≤ (s.buffer k).len →
    s.value? n = some (.u512 x) →
    s.script = .transact unit { op := 0xA4#8, s := sc, w := .held n, buf := k, dst := none } ::
      .transact unit { op := 0xA0#8, s := sc', w := o, buf := k, dst := some d } :: rest →
    ∃ t : State, core.run 2 s = .next t ∧ t.value? d = some (.u512 x) ∧ t.script = rest ∧
      t.responses = s.responses ++
        [{ unit := unit, status := .ok, value := none }, { unit := unit, status := .ok, value := some (.u512 x) }]

/-- A step that answers a unit, asked or (with no move left, oldest first: log entry 25) unasked, runs exec on its
request's ports and hands the response over (10_state.md §3 (R21), 20_memory.md §4 (R41), 70_reset_and_hazards.md §5
(R168)). -/
def Obligations.AnAnswerRunsTheOutstandingRequest : Prop :=
  (∀ (s : State) (unit : Nat) (rest : List HostMove) (p : Pending) (i : Instr),
    s.script = .answer unit :: rest → s.inFlight.find? (fun x => x.unit == unit) = some p →
    decode s.build.narrowCodecs p.ports.op = .ok i →
    step s =
      andThen (exec i { s with script := rest, req := p.ports, inFlight := s.inFlight.filter (fun x => x.unit != unit) })
        (fun t => .next (t.collect i p))) ∧
  (∀ (s : State) (p : Pending) (ps : List Pending) (i : Instr),
    s.script = [] → s.inFlight = p :: ps → decode s.build.narrowCodecs p.ports.op = .ok i →
    step s =
      andThen (exec i { s with req := p.ports, inFlight := s.inFlight.filter (fun x => x.unit != p.unit) })
        (fun t => .next (t.collect i p)))

/-- With no move left every outstanding request is answered, one a step (oldest first: log entry 25; an encode into a
read-only buffer apart: U6) (70_reset_and_hazards.md §3 (R166), §6 (R171), 60_exceptions.md §1 (R141)). -/
def Obligations.EveryRequestIsAnswered : Prop :=
  ∀ s : State, s.Inv → s.script = [] →
    (∀ p ∈ s.inFlight, ∀ i, decode s.build.narrowCodecs p.ports.op = .ok i → isEncode i = true →
      (s.buffer p.ports.buf).writable = true) →
    ∃ t : State, core.run s.inFlight.length s = .next t ∧ t.script = [] ∧ t.inFlight = [] ∧
      t.responses.map Response.unit = s.responses.map Response.unit ++ s.inFlight.map Pending.unit

/-- Every run ends: steps twice the moves plus the requests outstanding leave nothing to do, unless the run stops by name
before (70_reset_and_hazards.md §3 (R166), §6 (R171)). -/
def Obligations.EveryRunEndsInBoundedSteps : Prop :=
  ∀ s : State, match core.run (2 * s.script.length + s.inFlight.length) s with
    | .next t => t.script = [] ∧ t.inFlight = []
    | .fault _ => True
    | .refused _ => True

/-- A value read off a 512-bit port has the type asked for and the port's low N bits; a value driven onto a port and read
back at its type is itself (10_state.md §2 (R17, R20), §3 (R21)). -/
def Obligations.ValuesAndPortsAgree : Prop :=
  (∀ (T : WideType) (v : BitVec 512), (WideValue.ofPort T v).type = T ∧
    (WideValue.ofPort T v).port = (v.setWidth (widthBits T.width)).setWidth 512) ∧
  (∀ x : WideValue, WideValue.ofPort x.type x.port = x)
end

