-- ==== Sys2Proof/Laws/Memory.lean ====
section
/-! SUPPORT. The cells of a buffer: what a read gives after each operation, and that every operation keeps the canonical
form. -/

namespace Sys2Proof.Machine

@[simp] theorem Memory.read_nil (a : Nat) : Memory.read [] a = 0#8 := rfl

theorem Memory.read_erase (m : List Host.Cell) (a b : Nat) :
    Memory.read (Memory.erase m a) b = if a = b then 0#8 else Memory.read m b := by
  induction m with
  | nil => simp [Memory.erase]
  | cons c m ih =>
    by_cases hc : c.1 = a <;> by_cases hab : a = b <;> simp_all [Memory.erase, Memory.read]

theorem Memory.read_insert (m : List Host.Cell) (a b : Nat) (v : Byte) (h : Memory.read m a = 0#8)
    (hm : ∀ c ∈ m, c.1 ≠ a) :
    Memory.read (Memory.insert m a v) b = if a = b then v else Memory.read m b := by
  induction m with
  | nil => simp [Memory.insert, Memory.read]
  | cons c m ih =>
    have hc : c.1 ≠ a := hm c (by simp)
    have ih := ih (by simpa [Memory.read, hc] using h) (fun d hd => hm d (by simp [hd]))
    by_cases hlt : a < c.1
    · rw [Memory.insert, if_pos hlt, Memory.read]
    · rw [Memory.insert, if_neg hlt, Memory.read, ih, Memory.read]
      by_cases hab : a = b
      · simp [hab, show ¬ c.1 = b from hab ▸ hc]
      · simp [hab]

theorem Memory.erase_ne (m : List Host.Cell) (a : Nat) : ∀ c ∈ Memory.erase m a, c.1 ≠ a := by
  induction m with
  | nil => simp [Memory.erase]
  | cons c m ih =>
    by_cases hc : c.1 = a
    · simpa [Memory.erase, hc] using ih
    · simp only [Memory.erase, hc, if_false, List.mem_cons, forall_eq_or_imp]
      exact ⟨hc, ih⟩

/-- A write sets the byte at its offset and no other. -/
theorem Memory.read_write (m : List Host.Cell) (a b : Nat) (v : Byte) :
    Memory.read (Memory.write m a v) b = if a = b then v else Memory.read m b := by
  unfold Memory.write
  split
  · next h => rw [Memory.read_erase, h]
  · rw [Memory.read_insert _ _ _ _ (by simp [Memory.read_erase]) (Memory.erase_ne m a), Memory.read_erase]
    split <;> rfl

/-- A wide write sets the bytes of its range to the bytes of its value, lowest byte at the lowest offset, and no other. -/
theorem Memory.read_writeBytes {W : Nat} (m : List Host.Cell) (off : Nat) (v : BitVec W) (n a : Nat) :
    Memory.read (Memory.writeBytes m off v n) a =
      if off ≤ a ∧ a < off + n then v.extractLsb' (8 * (a - off)) 8 else Memory.read m a := by
  induction n with
  | zero => simp [Memory.writeBytes]
  | succ n ih =>
    rw [Memory.writeBytes, Memory.read_write, ih]
    by_cases h : off + n = a
    · subst h; simp
    · have : (off ≤ a ∧ a < off + (n + 1)) ↔ (off ≤ a ∧ a < off + n) := by omega
      simp [h, this]

/-- Bit `j` of a wide read is bit `j % 8` of byte `j / 8`. -/
theorem Memory.getLsbD_readBytes (W : Nat) (m : List Host.Cell) (off n j : Nat) :
    (Memory.readBytes W m off n).getLsbD j =
      (decide (j < W) && decide (j < 8 * n) && (Memory.read m (off + j / 8)).getLsbD (j % 8)) := by
  induction n with
  | zero => simp [Memory.readBytes]
  | succ n ih =>
    rw [Memory.readBytes, BitVec.getLsbD_or, ih, BitVec.getLsbD_shiftLeft, BitVec.getLsbD_setWidth]
    by_cases hW : j < W
    · by_cases h1 : j < 8 * n
      · simp [hW, h1, show j < 8 * (n + 1) by omega]
      · by_cases h2 : j < 8 * (n + 1)
        · have e1 : j / 8 = n := by omega
          have e2 : j - 8 * n = j % 8 := by omega
          simp [hW, h1, h2, e1, e2, show j % 8 < W by omega]
        · have : 8 ≤ j - 8 * n := by omega
          simp [hW, h1, h2, BitVec.getLsbD_of_ge _ _ this]
    · simp [hW]

/-- Byte `i` of a wide read is the byte at `off + i`. -/
theorem Memory.extract_readBytes (W : Nat) (m : List Host.Cell) (off n i : Nat) (hi : i < n) (hW : 8 * n ≤ W) :
    (Memory.readBytes W m off n).extractLsb' (8 * i) 8 = Memory.read m (off + i) := by
  apply BitVec.eq_of_getLsbD_eq
  intro j hj
  rw [BitVec.getLsbD_extractLsb', Memory.getLsbD_readBytes]
  have e1 : (8 * i + j) / 8 = i := by omega
  have e2 : (8 * i + j) % 8 = j := by omega
  simp [hj, e1, e2, show 8 * i + j < W by omega, show 8 * i + j < 8 * n by omega]

/-! The canonical form. -/

theorem Memory.wfFrom_le {lo lo' : Nat} (m : List Host.Cell) (h : lo ≤ lo') (hm : Memory.wfFrom lo' m = true) :
    Memory.wfFrom lo m = true := by
  cases m with
  | nil => rfl
  | cons c m =>
    simp only [Memory.wfFrom, Bool.and_eq_true, decide_eq_true_eq] at hm ⊢
    exact ⟨⟨by omega, hm.1.2⟩, hm.2⟩

theorem Memory.wfFrom_erase {lo : Nat} (m : List Host.Cell) (a : Nat) (h : Memory.wfFrom lo m = true) :
    Memory.wfFrom lo (Memory.erase m a) = true := by
  induction m generalizing lo with
  | nil => rfl
  | cons c m ih =>
    simp only [Memory.wfFrom, Bool.and_eq_true, decide_eq_true_eq] at h
    by_cases hc : c.1 = a
    · simp only [Memory.erase, hc, if_true]
      exact Memory.wfFrom_le _ (by omega) (ih h.2)
    · simp only [Memory.erase, hc, if_false, Memory.wfFrom, Bool.and_eq_true, decide_eq_true_eq]
      exact ⟨h.1, ih h.2⟩

theorem Memory.wfFrom_insert {lo : Nat} (m : List Host.Cell) (a : Nat) (v : Byte) (hv : v ≠ 0#8) (hlo : lo ≤ a)
    (hm : ∀ c ∈ m, c.1 ≠ a) (h : Memory.wfFrom lo m = true) : Memory.wfFrom lo (Memory.insert m a v) = true := by
  induction m generalizing lo with
  | nil => simp [Memory.insert, Memory.wfFrom, hv, hlo]
  | cons c m ih =>
    simp only [Memory.wfFrom, Bool.and_eq_true, decide_eq_true_eq] at h
    have hc : c.1 ≠ a := hm c (by simp)
    by_cases hlt : a < c.1
    · simp only [Memory.insert, hlt, if_true, Memory.wfFrom, Bool.and_eq_true, decide_eq_true_eq]
      exact ⟨⟨hlo, hv⟩, ⟨by omega, h.1.2⟩, h.2⟩
    · simp only [Memory.insert, hlt, if_false, Memory.wfFrom, Bool.and_eq_true, decide_eq_true_eq]
      exact ⟨h.1, ih (by omega) (fun d hd => hm d (by simp [hd])) h.2⟩

theorem Memory.wf_write (m : List Host.Cell) (a : Nat) (v : Byte) (h : Memory.wf m = true) :
    Memory.wf (Memory.write m a v) = true := by
  unfold Memory.write
  split
  · exact Memory.wfFrom_erase m a h
  · next hv => exact Memory.wfFrom_insert _ a v hv (Nat.zero_le a) (Memory.erase_ne m a) (Memory.wfFrom_erase m a h)

theorem Memory.wf_writeBytes {W : Nat} (m : List Host.Cell) (off : Nat) (v : BitVec W) (n : Nat)
    (h : Memory.wf m = true) : Memory.wf (Memory.writeBytes m off v n) = true := by
  induction n with
  | zero => exact h
  | succ n ih => exact Memory.wf_write _ _ _ ih

/-! Where cells stand after a write. -/

theorem Memory.mem_erase {m : List Host.Cell} {a : Nat} {c : Host.Cell} (h : c ∈ Memory.erase m a) : c ∈ m := by
  induction m with
  | nil => exact h
  | cons d m ih =>
    by_cases hd : d.1 = a
    · simp only [Memory.erase, hd, if_true] at h
      exact List.mem_cons_of_mem _ (ih h)
    · simp only [Memory.erase, hd, if_false, List.mem_cons] at h
      rcases h with rfl | h
      · simp
      · exact List.mem_cons_of_mem _ (ih h)

theorem Memory.mem_insert {m : List Host.Cell} {a : Nat} {v : Byte} {c : Host.Cell} (h : c ∈ Memory.insert m a v) :
    c = (a, v) ∨ c ∈ m := by
  induction m with
  | nil => simpa [Memory.insert] using h
  | cons d m ih =>
    by_cases hd : a < d.1
    · simpa [Memory.insert, hd] using h
    · simp only [Memory.insert, hd, if_false, List.mem_cons] at h ⊢
      rcases h with rfl | h
      · simp
      · rcases ih h with h | h <;> simp [h]

theorem Memory.all_lt_write {m : List Host.Cell} {a n : Nat} {v : Byte} (ha : a < n) (h : ∀ c ∈ m, c.1 < n) :
    ∀ c ∈ Memory.write m a v, c.1 < n := by
  intro c hc
  unfold Memory.write at hc
  split at hc
  · exact h c (Memory.mem_erase hc)
  · rcases Memory.mem_insert hc with rfl | hc
    · exact ha
    · exact h c (Memory.mem_erase hc)

theorem Memory.all_lt_writeBytes {W : Nat} {m : List Host.Cell} {off k n : Nat} {v : BitVec W} (hk : off + k ≤ n)
    (h : ∀ c ∈ m, c.1 < n) : ∀ c ∈ Memory.writeBytes m off v k, c.1 < n := by
  induction k with
  | zero => exact h
  | succ k ih => exact Memory.all_lt_write (by omega) (ih (by omega))

/-! Buffers. -/

theorem Buffer.wf_iff (b : Buffer) : b.wf = true ↔ Memory.wf b.cells = true ∧ ∀ c ∈ b.cells, c.1 < b.len := by
  simp [Buffer.wf, List.all_eq_true]

/-- What a byte store does: the offset exists, that byte changes and nothing else, and the form is kept. -/
theorem Buffer.store_some {b b' : Buffer} {off : Nat} {v : Byte} (h : b.store off v = some b') :
    off < b.len ∧ b'.len = b.len ∧ b'.writable = b.writable ∧
      (∀ a, b'.byte a = if off = a then v else b.byte a) ∧ (b.wf = true → b'.wf = true) := by
  unfold Buffer.store at h
  split at h
  · next hlt =>
    cases h
    refine ⟨hlt, rfl, rfl, fun a => Memory.read_write _ _ _ _, fun hw => ?_⟩
    rw [Buffer.wf_iff] at hw ⊢
    exact ⟨Memory.wf_write _ _ _ hw.1, Memory.all_lt_write hlt hw.2⟩
  · cases h

/-- A lane read answers exactly where its eight bytes exist; its bytes are those of the buffer. -/
theorem Buffer.memReadLane_some {b : Buffer} {off : Nat} {v : Lane} (h : b.memReadLane off = some v) :
    off + 8 ≤ b.len ∧ ∀ i, i < 8 → v.extractLsb' (8 * i) 8 = b.byte (off + i) := by
  unfold Buffer.memReadLane at h
  split at h
  · next hl => cases h; exact ⟨hl, fun i hi => Memory.extract_readBytes _ _ _ _ _ hi (by omega)⟩
  · cases h

theorem Buffer.memReadLane_eq {b : Buffer} {off : Nat} (h : off + 8 ≤ b.len) :
    b.memReadLane off = some (Memory.readBytes 64 b.cells off 8) := by
  simp [Buffer.memReadLane, h]

/-- What a lane write does: the eight bytes exist, they become the bytes of the lane, nothing else changes, and the form is
kept. -/
theorem Buffer.memWriteLane_some {b b' : Buffer} {off : Nat} {v : Lane} (h : b.memWriteLane off v = some b') :
    off + 8 ≤ b.len ∧ b'.len = b.len ∧ b'.writable = b.writable ∧
      (∀ a, b'.byte a = if off ≤ a ∧ a < off + 8 then v.extractLsb' (8 * (a - off)) 8 else b.byte a) ∧
      (b.wf = true → b'.wf = true) := by
  unfold Buffer.memWriteLane at h
  split at h
  · next hl =>
    cases h
    refine ⟨hl, rfl, rfl, fun a => Memory.read_writeBytes _ _ _ _ _, fun hw => ?_⟩
    rw [Buffer.wf_iff] at hw ⊢
    exact ⟨Memory.wf_writeBytes _ _ _ _ hw.1, Memory.all_lt_writeBytes (by omega) hw.2⟩
  · cases h

theorem Buffer.memWriteLane_eq {b : Buffer} {off : Nat} (v : Lane) (h : off + 8 ≤ b.len) :
    b.memWriteLane off v = some { b with cells := Memory.writeBytes b.cells off v 8 } := by
  simp [Buffer.memWriteLane, h]

/-- A buffer built from bytes has its length, its bytes, and the canonical form. -/
theorem Buffer.ofBytes_spec (w : Bool) (bytes : List Byte) :
    (Buffer.ofBytes w bytes).len = bytes.length ∧ (Buffer.ofBytes w bytes).writable = w ∧
      (∀ a, (Buffer.ofBytes w bytes).byte a = bytes.getD a 0#8) ∧ (Buffer.ofBytes w bytes).wf = true := by
  have key : ∀ (l : List Byte) (k : Nat) (m : List Host.Cell), Memory.wf m = true → (∀ c ∈ m, c.1 < k + l.length) →
      (∀ a, k ≤ a → Memory.read m a = 0#8) →
      let m' := (l.zipIdx k).foldl (fun m p => Memory.write m p.2 p.1) m
      Memory.wf m' = true ∧ (∀ c ∈ m', c.1 < k + l.length) ∧
        ∀ a, Memory.read m' a = if a < k then Memory.read m a else l.getD (a - k) 0#8 := by
    intro l
    induction l with
    | nil =>
      intro k m hm hlt hz
      refine ⟨hm, hlt, fun a => ?_⟩
      by_cases h : a < k
      · simp [h]
      · simp [h, hz a (by omega)]
    | cons x l ih =>
      intro k m hm hlt hz
      simp only [List.length_cons] at hlt
      have := ih (k + 1) (Memory.write m k x) (Memory.wf_write _ _ _ hm)
        (by
          have := Memory.all_lt_write (v := x) (show k < k + (l.length + 1) by omega) hlt
          intro c hc; have := this c hc; omega)
        (by intro a ha; rw [Memory.read_write, if_neg (by omega), hz a (by omega)])
      simp only [List.zipIdx_cons, List.foldl_cons, List.length_cons]
      refine ⟨this.1, fun c hc => by have := this.2.1 c hc; omega, fun a => ?_⟩
      rw [this.2.2 a, Memory.read_write]
      by_cases h1 : a < k
      · simp [h1, show a < k + 1 by omega, show k ≠ a by omega]
      · by_cases h2 : a = k
        · subst h2; simp
        · have : a - k = (a - (k + 1)) + 1 := by omega
          simp [h1, show ¬ a < k + 1 by omega, this]
  have := key bytes 0 [] rfl (by simp) (by simp)
  refine ⟨rfl, rfl, fun a => ?_, ?_⟩
  · simpa [Buffer.byte, Buffer.ofBytes] using this.2.2 a
  · rw [Buffer.wf_iff]
    exact ⟨this.1, fun c hc => by simpa [Buffer.ofBytes] using this.2.1 c hc⟩

end Sys2Proof.Machine
end

