-- ==== Sys2Proof/Laws/State.lean ====
section
/-! SUPPORT. What each update of the state leaves in each field. -/

namespace Sys2Proof.Machine

@[simp] theorem State.respond_build {N : Nat} (s : State) (v : BitVec N) : (s.respond v).build = s.build := rfl
@[simp] theorem State.respond_req {N : Nat} (s : State) (v : BitVec N) : (s.respond v).req = s.req := rfl
@[simp] theorem State.respond_resp {N : Nat} (s : State) (v : BitVec N) : (s.respond v).resp = { status := .ok, r := v.setWidth 512 } := rfl
@[simp] theorem State.respond_buffers {N : Nat} (s : State) (v : BitVec N) : (s.respond v).buffers = s.buffers := rfl
@[simp] theorem State.respond_values {N : Nat} (s : State) (v : BitVec N) : (s.respond v).values = s.values := rfl
@[simp] theorem State.respond_script {N : Nat} (s : State) (v : BitVec N) : (s.respond v).script = s.script := rfl
@[simp] theorem State.respond_inFlight {N : Nat} (s : State) (v : BitVec N) : (s.respond v).inFlight = s.inFlight := rfl
@[simp] theorem State.respond_responses {N : Nat} (s : State) (v : BitVec N) : (s.respond v).responses = s.responses := rfl
@[simp] theorem State.respond_freeCount {N : Nat} (s : State) (v : BitVec N) : (s.respond v).freeCount = s.freeCount := rfl

@[simp] theorem State.respondNoValue_build (s : State) (st : Status) : (s.respondNoValue st).build = s.build := rfl
@[simp] theorem State.respondNoValue_req (s : State) (st : Status) : (s.respondNoValue st).req = s.req := rfl
@[simp] theorem State.respondNoValue_resp (s : State) (st : Status) : (s.respondNoValue st).resp = { status := st, r := Config.freeResult s.freeCount } := rfl
@[simp] theorem State.respondNoValue_buffers (s : State) (st : Status) : (s.respondNoValue st).buffers = s.buffers := rfl
@[simp] theorem State.respondNoValue_values (s : State) (st : Status) : (s.respondNoValue st).values = s.values := rfl
@[simp] theorem State.respondNoValue_script (s : State) (st : Status) : (s.respondNoValue st).script = s.script := rfl
@[simp] theorem State.respondNoValue_inFlight (s : State) (st : Status) : (s.respondNoValue st).inFlight = s.inFlight := rfl
@[simp] theorem State.respondNoValue_responses (s : State) (st : Status) : (s.respondNoValue st).responses = s.responses := rfl
@[simp] theorem State.respondNoValue_freeCount (s : State) (st : Status) : (s.respondNoValue st).freeCount = s.freeCount + 1 := rfl

@[simp] theorem State.respondDone_build (s : State) : (s.respondDone).build = s.build := rfl
@[simp] theorem State.respondDone_req (s : State) : (s.respondDone).req = s.req := rfl
@[simp] theorem State.respondDone_resp (s : State) : (s.respondDone).resp = { status := .ok, r := Config.freeResult s.freeCount } := rfl
@[simp] theorem State.respondDone_buffers (s : State) : (s.respondDone).buffers = s.buffers := rfl
@[simp] theorem State.respondDone_values (s : State) : (s.respondDone).values = s.values := rfl
@[simp] theorem State.respondDone_script (s : State) : (s.respondDone).script = s.script := rfl
@[simp] theorem State.respondDone_inFlight (s : State) : (s.respondDone).inFlight = s.inFlight := rfl
@[simp] theorem State.respondDone_responses (s : State) : (s.respondDone).responses = s.responses := rfl
@[simp] theorem State.respondDone_freeCount (s : State) : (s.respondDone).freeCount = s.freeCount + 1 := rfl

@[simp] theorem State.raiseBufTooShort_build (s : State) : (s.raiseBufTooShort).build = s.build := rfl
@[simp] theorem State.raiseBufTooShort_req (s : State) : (s.raiseBufTooShort).req = s.req := rfl
@[simp] theorem State.raiseBufTooShort_resp (s : State) : (s.raiseBufTooShort).resp = { status := .bufShort, r := Config.freeResult s.freeCount } := rfl
@[simp] theorem State.raiseBufTooShort_buffers (s : State) : (s.raiseBufTooShort).buffers = s.buffers := rfl
@[simp] theorem State.raiseBufTooShort_values (s : State) : (s.raiseBufTooShort).values = s.values := rfl
@[simp] theorem State.raiseBufTooShort_script (s : State) : (s.raiseBufTooShort).script = s.script := rfl
@[simp] theorem State.raiseBufTooShort_inFlight (s : State) : (s.raiseBufTooShort).inFlight = s.inFlight := rfl
@[simp] theorem State.raiseBufTooShort_responses (s : State) : (s.raiseBufTooShort).responses = s.responses := rfl
@[simp] theorem State.raiseBufTooShort_freeCount (s : State) : (s.raiseBufTooShort).freeCount = s.freeCount + 1 := rfl

@[simp] theorem State.setBuffer_build (s : State) (i : Nat) (b : Buffer) : (s.setBuffer i b).build = s.build := rfl
@[simp] theorem State.setBuffer_req (s : State) (i : Nat) (b : Buffer) : (s.setBuffer i b).req = s.req := rfl
@[simp] theorem State.setBuffer_resp (s : State) (i : Nat) (b : Buffer) : (s.setBuffer i b).resp = s.resp := rfl
@[simp] theorem State.setBuffer_buffers (s : State) (i : Nat) (b : Buffer) : (s.setBuffer i b).buffers = s.buffers.set i b := rfl
@[simp] theorem State.setBuffer_values (s : State) (i : Nat) (b : Buffer) : (s.setBuffer i b).values = s.values := rfl
@[simp] theorem State.setBuffer_script (s : State) (i : Nat) (b : Buffer) : (s.setBuffer i b).script = s.script := rfl
@[simp] theorem State.setBuffer_inFlight (s : State) (i : Nat) (b : Buffer) : (s.setBuffer i b).inFlight = s.inFlight := rfl
@[simp] theorem State.setBuffer_responses (s : State) (i : Nat) (b : Buffer) : (s.setBuffer i b).responses = s.responses := rfl
@[simp] theorem State.setBuffer_freeCount (s : State) (i : Nat) (b : Buffer) : (s.setBuffer i b).freeCount = s.freeCount := rfl

@[simp] theorem State.present_build (s : State) (p : Pending) : (s.present p).build = s.build := rfl
@[simp] theorem State.present_req (s : State) (p : Pending) : (s.present p).req = p.ports := rfl
@[simp] theorem State.present_resp (s : State) (p : Pending) : (s.present p).resp = s.resp := rfl
@[simp] theorem State.present_buffers (s : State) (p : Pending) : (s.present p).buffers = s.buffers := rfl
@[simp] theorem State.present_values (s : State) (p : Pending) : (s.present p).values = s.values := rfl
@[simp] theorem State.present_script (s : State) (p : Pending) : (s.present p).script = s.script := rfl
@[simp] theorem State.present_inFlight (s : State) (p : Pending) : (s.present p).inFlight = s.inFlight.filter (fun x => x.unit != p.unit) := rfl
@[simp] theorem State.present_responses (s : State) (p : Pending) : (s.present p).responses = s.responses := rfl
@[simp] theorem State.present_freeCount (s : State) (p : Pending) : (s.present p).freeCount = s.freeCount := rfl

@[simp] theorem State.collect_build (s : State) (i : Instr) (p : Pending) : (s.collect i p).build = s.build := rfl
@[simp] theorem State.collect_req (s : State) (i : Instr) (p : Pending) : (s.collect i p).req = s.req := rfl
@[simp] theorem State.collect_resp (s : State) (i : Instr) (p : Pending) : (s.collect i p).resp = s.resp := rfl
@[simp] theorem State.collect_buffers (s : State) (i : Instr) (p : Pending) : (s.collect i p).buffers = s.buffers := rfl
@[simp] theorem State.collect_script (s : State) (i : Instr) (p : Pending) : (s.collect i p).script = s.script := rfl
@[simp] theorem State.collect_inFlight (s : State) (i : Instr) (p : Pending) : (s.collect i p).inFlight = s.inFlight := rfl
@[simp] theorem State.collect_responses (s : State) (i : Instr) (p : Pending) : (s.collect i p).responses = s.responses ++ [{ unit := p.unit, status := s.resp.status, value := s.responseValue i }] := rfl
@[simp] theorem State.collect_freeCount (s : State) (i : Instr) (p : Pending) : (s.collect i p).freeCount = s.freeCount := rfl

/-- The host's value store after a response. -/
theorem State.collect_values (s : State) (i : Instr) (p : Pending) :
    (s.collect i p).values =
      match p.dst with
      | none => s.values
      | some name =>
        match s.responseValue i with
        | some v => putValue s.values name v
        | none => dropValue s.values name := rfl

/-! The buffer of a number, and the values by name. -/

theorem State.buffer_congr {s t : State} (h : s.buffers = t.buffers) (k : Nat) : s.buffer k = t.buffer k := by
  unfold State.buffer; rw [h]

theorem State.buffer_setBuffer (s : State) (i k : Nat) (b : Buffer) :
    (s.setBuffer i b).buffer k = if i = k ∧ i < s.buffers.length then b else s.buffer k := by
  unfold State.buffer State.setBuffer
  simp only [List.getD_eq_getElem?_getD, List.getElem?_set]
  by_cases h : i = k
  · subst h
    by_cases h2 : i < s.buffers.length <;> simp [h2]
  · simp [h]

theorem State.lt_length_of_buffer {s : State} {i : Nat} (h : 0 < (s.buffer i).len) : i < s.buffers.length := by
  by_contra hn
  have : s.buffer i = Buffer.empty := by
    unfold State.buffer
    simp [List.getD_eq_getElem?_getD, List.getElem?_eq_none (show s.buffers.length ≤ i by omega)]
  rw [this] at h
  exact absurd h (by decide)

theorem find_dropValue (vs : List (Nat × WideValue)) (name n : Nat) :
    (dropValue vs name).find? (fun p => p.1 == n) = if name = n then none else vs.find? (fun p => p.1 == n) := by
  induction vs with
  | nil => simp [dropValue]
  | cons p vs ih =>
    unfold dropValue at ih ⊢
    by_cases h1 : p.1 = name
    · subst h1
      by_cases h2 : p.1 = n <;> simp_all
    · by_cases h2 : p.1 = n
      · subst h2
        simp [h1, Ne.symm h1]
      · simp_all

theorem find_putValue (vs : List (Nat × WideValue)) (name n : Nat) (v : WideValue) :
    (putValue vs name v).find? (fun p => p.1 == n) =
      if name = n then some (name, v) else vs.find? (fun p => p.1 == n) := by
  unfold putValue
  by_cases h : name = n
  · simp [h]
  · simp [h, find_dropValue]

theorem State.value?_congr {s t : State} (h : s.values = t.values) (n : Nat) : s.value? n = t.value? n := by
  unfold State.value?; rw [h]

/-- What a response leaves under each name: a value under its own name, and every other as before (R19). -/
theorem State.value?_collect (s : State) (i : Instr) (p : Pending) (n : Nat) :
    (s.collect i p).value? n = if p.dst = some n then s.responseValue i else s.value? n := by
  unfold State.value?
  rw [State.collect_values]
  cases hd : p.dst with
  | none => simp
  | some name =>
    cases hv : s.responseValue i with
    | none => by_cases h : name = n <;> simp [find_dropValue, h]
    | some v => by_cases h : name = n <;> simp [find_putValue, h]

end Sys2Proof.Machine
end

