-- ==== Sys2Proof/Laws/Codec.lean ====
section
/-! SUPPORT. What the shared operations of the codec do: the records read and written at an offset, a decode, an encode. -/

namespace Sys2Proof.Machine

/-- A 16-byte read answers where its bytes exist; its halves are the lanes at the two offsets. -/
theorem Buffer.readU128_iff (b : Buffer) (off : Nat) (x : U128) :
    b.readU128 off = some x ↔ b.memReadLane off = some x.low ∧ b.memReadLane (off + 8) = some x.high := by
  unfold Buffer.readU128
  cases x
  cases b.memReadLane off <;> cases b.memReadLane (off + 8) <;> simp

theorem Buffer.readU256_iff (b : Buffer) (off : Nat) (x : U256) :
    b.readU256 off = some x ↔ b.readU128 off = some x.low ∧ b.readU128 (off + 16) = some x.high := by
  unfold Buffer.readU256
  cases x
  cases b.readU128 off <;> cases b.readU128 (off + 16) <;> simp

theorem Buffer.readU512_iff (b : Buffer) (off : Nat) (x : U512) :
    b.readU512 off = some x ↔ b.readU256 off = some x.low ∧ b.readU256 (off + 32) = some x.high := by
  unfold Buffer.readU512
  cases x
  cases b.readU256 off <;> cases b.readU256 (off + 32) <;> simp

theorem Buffer.readU128_isSome {b : Buffer} {off : Nat} (h : off + 16 ≤ b.len) : ∃ x, b.readU128 off = some x :=
  ⟨⟨Memory.readBytes 64 b.cells off 8, Memory.readBytes 64 b.cells (off + 8) 8⟩,
    (Buffer.readU128_iff _ _ _).2 ⟨Buffer.memReadLane_eq (by omega), Buffer.memReadLane_eq (by omega)⟩⟩

theorem Buffer.readU256_isSome {b : Buffer} {off : Nat} (h : off + 32 ≤ b.len) : ∃ x, b.readU256 off = some x := by
  obtain ⟨l, hl⟩ := Buffer.readU128_isSome (b := b) (off := off) (by omega)
  obtain ⟨r, hr⟩ := Buffer.readU128_isSome (b := b) (off := off + 16) (by omega)
  exact ⟨⟨l, r⟩, (Buffer.readU256_iff _ _ _).2 ⟨hl, hr⟩⟩

theorem Buffer.readU512_isSome {b : Buffer} {off : Nat} (h : off + 64 ≤ b.len) : ∃ x, b.readU512 off = some x := by
  obtain ⟨l, hl⟩ := Buffer.readU256_isSome (b := b) (off := off) (by omega)
  obtain ⟨r, hr⟩ := Buffer.readU256_isSome (b := b) (off := off + 32) (by omega)
  exact ⟨⟨l, r⟩, (Buffer.readU512_iff _ _ _).2 ⟨hl, hr⟩⟩

/-- What a write of `n` bytes at `off`, byte `i` being `img i`, does to a buffer: it keeps the length and the mark, sets
those bytes and no other, and keeps the form. -/
structure Buffer.Wrote (b b' : Buffer) (off n : Nat) (img : Nat → Byte) : Prop where
  exists_ : off + n ≤ b.len
  len : b'.len = b.len
  writable : b'.writable = b.writable
  byte : ∀ a, b'.byte a = if off ≤ a ∧ a < off + n then img (a - off) else b.byte a
  wf : b.wf = true → b'.wf = true

theorem Buffer.Wrote.append {b b' b'' : Buffer} {off n m : Nat} {f g : Nat → Byte} (h1 : b.Wrote b' off n f)
    (h2 : b'.Wrote b'' (off + n) m g) : b.Wrote b'' off (n + m) (fun i => if i < n then f i else g (i - n)) where
  exists_ := by have := h2.exists_; have := h1.len; omega
  len := h2.len.trans h1.len
  writable := h2.writable.trans h1.writable
  byte a := by
    rw [h2.byte a, h1.byte a]
    by_cases c1 : off + n ≤ a ∧ a < off + n + m
    · rw [if_pos c1, if_pos (by omega), if_neg (by omega)]
      congr 1
      omega
    · rw [if_neg c1]
      by_cases c2 : off ≤ a ∧ a < off + n
      · rw [if_pos c2, if_pos (by omega), if_pos (by omega)]
      · rw [if_neg c2, if_neg (by omega)]
  wf h := h2.wf (h1.wf h)

theorem Buffer.Wrote.congr {b b' : Buffer} {off n : Nat} {f g : Nat → Byte} (h : b.Wrote b' off n f)
    (hfg : ∀ i, i < n → f i = g i) : b.Wrote b' off n g where
  exists_ := h.exists_
  len := h.len
  writable := h.writable
  byte a := by
    rw [h.byte a]
    by_cases c : off ≤ a ∧ a < off + n
    · rw [if_pos c, if_pos c, hfg _ (by omega)]
    · rw [if_neg c, if_neg c]
  wf := h.wf

theorem Buffer.memWriteLane_wrote {b b' : Buffer} {off : Nat} {v : Lane} (h : b.memWriteLane off v = some b') :
    b.Wrote b' off 8 (fun i => v.extractLsb' (8 * i) 8) :=
  have h := Buffer.memWriteLane_some h
  ⟨h.1, h.2.1, h.2.2.1, h.2.2.2.1, h.2.2.2.2⟩

/-- Byte `i` of a concatenation is a byte of the low part, or of the high one. -/
theorem extract_byte_append {n m : Nat} (hi : BitVec n) (lo : BitVec (8 * m)) (i : Nat) :
    (hi ++ lo).extractLsb' (8 * i) 8 =
      if i < m then lo.extractLsb' (8 * i) 8 else hi.extractLsb' (8 * (i - m)) 8 := by
  apply BitVec.eq_of_getLsbD_eq
  intro j hj
  rw [BitVec.getLsbD_extractLsb', BitVec.getLsbD_append]
  by_cases h : i < m
  · rw [if_pos h, BitVec.getLsbD_extractLsb']
    simp [show 8 * i + j < 8 * m by omega]
  · rw [if_neg h, BitVec.getLsbD_extractLsb']
    simp [show ¬ 8 * i + j < 8 * m by omega, show 8 * i + j - 8 * m = 8 * (i - m) + j by omega]

theorem Buffer.writeU128_wrote {b b' : Buffer} {off : Nat} {x : U128} (h : b.writeU128 off x = some b') :
    b.Wrote b' off 16 (fun i => x.bits.extractLsb' (8 * i) 8) := by
  unfold Buffer.writeU128 at h
  split at h
  · next b1 h1 =>
    refine ((Buffer.memWriteLane_wrote h1).append (Buffer.memWriteLane_wrote h)).congr fun i _ => ?_
    exact (extract_byte_append (m := 8) x.high x.low i).symm
  · cases h

theorem Buffer.writeU256_wrote {b b' : Buffer} {off : Nat} {x : U256} (h : b.writeU256 off x = some b') :
    b.Wrote b' off 32 (fun i => x.bits.extractLsb' (8 * i) 8) := by
  unfold Buffer.writeU256 at h
  split at h
  · next b1 h1 =>
    refine ((Buffer.writeU128_wrote h1).append (Buffer.writeU128_wrote h)).congr fun i _ => ?_
    exact (extract_byte_append (m := 16) x.high.bits x.low.bits i).symm
  · cases h

theorem Buffer.writeU512_wrote {b b' : Buffer} {off : Nat} {x : U512} (h : b.writeU512 off x = some b') :
    b.Wrote b' off 64 (fun i => x.bits.extractLsb' (8 * i) 8) := by
  unfold Buffer.writeU512 at h
  split at h
  · next b1 h1 =>
    refine ((Buffer.writeU256_wrote h1).append (Buffer.writeU256_wrote h)).congr fun i _ => ?_
    exact (extract_byte_append (m := 32) x.high.bits x.low.bits i).symm
  · cases h

theorem Buffer.writeU128_isSome {b : Buffer} {off : Nat} (x : U128) (h : off + 16 ≤ b.len) :
    ∃ b', b.writeU128 off x = some b' := by
  unfold Buffer.writeU128
  rw [Buffer.memWriteLane_eq _ (by omega)]
  exact ⟨_, Buffer.memWriteLane_eq _ (by simpa using h)⟩

theorem Buffer.writeU256_isSome {b : Buffer} {off : Nat} (x : U256) (h : off + 32 ≤ b.len) :
    ∃ b', b.writeU256 off x = some b' := by
  obtain ⟨b1, h1⟩ := Buffer.writeU128_isSome (b := b) (off := off) x.low (by omega)
  unfold Buffer.writeU256
  rw [h1]
  exact Buffer.writeU128_isSome _ (by rw [(Buffer.writeU128_wrote h1).len]; omega)

theorem Buffer.writeU512_isSome {b : Buffer} {off : Nat} (x : U512) (h : off + 64 ≤ b.len) :
    ∃ b', b.writeU512 off x = some b' := by
  obtain ⟨b1, h1⟩ := Buffer.writeU256_isSome (b := b) (off := off) x.low (by omega)
  unfold Buffer.writeU512
  rw [h1]
  exact Buffer.writeU256_isSome _ (by rw [(Buffer.writeU256_wrote h1).len]; omega)

/-! The bytes of a record read. -/

theorem Buffer.readU128_bytes {b : Buffer} {off : Nat} {x : U128} (h : b.readU128 off = some x) :
    ∀ i, i < 16 → x.bits.extractLsb' (8 * i) 8 = b.byte (off + i) := by
  intro i hi
  obtain ⟨hl, hh⟩ := (Buffer.readU128_iff _ _ _).1 h
  refine (extract_byte_append (m := 8) x.high x.low i).trans ?_
  by_cases c : i < 8
  · rw [if_pos c]; exact (Buffer.memReadLane_some hl).2 i c
  · rw [if_neg c, (Buffer.memReadLane_some hh).2 (i - 8) (by omega)]
    congr 1; omega

theorem Buffer.readU256_bytes {b : Buffer} {off : Nat} {x : U256} (h : b.readU256 off = some x) :
    ∀ i, i < 32 → x.bits.extractLsb' (8 * i) 8 = b.byte (off + i) := by
  intro i hi
  obtain ⟨hl, hh⟩ := (Buffer.readU256_iff _ _ _).1 h
  refine (extract_byte_append (m := 16) x.high.bits x.low.bits i).trans ?_
  by_cases c : i < 16
  · rw [if_pos c]; exact Buffer.readU128_bytes hl i c
  · rw [if_neg c, Buffer.readU128_bytes hh (i - 16) (by omega)]
    congr 1; omega

theorem Buffer.readU512_bytes {b : Buffer} {off : Nat} {x : U512} (h : b.readU512 off = some x) :
    ∀ i, i < 64 → x.bits.extractLsb' (8 * i) 8 = b.byte (off + i) := by
  intro i hi
  obtain ⟨hl, hh⟩ := (Buffer.readU512_iff _ _ _).1 h
  refine (extract_byte_append (m := 32) x.high.bits x.low.bits i).trans ?_
  by_cases c : i < 32
  · rw [if_pos c]; exact Buffer.readU256_bytes hl i c
  · rw [if_neg c, Buffer.readU256_bytes hh (i - 32) (by omega)]
    congr 1; omega

/-! A decode and an encode. -/

theorem tooShort_iff (b : Buffer) (need : Nat) : tooShort b need = true ↔ b.len < need := by simp [tooShort]

/-- Everything a decode can do: the error where the buffer is short, else the value read. -/
theorem decodeOp_cases {N need : Nat} {read : Buffer → Option (BitVec N)} (s : State)
    (hread : need ≤ s.reqBuffer.len → ∃ v, read s.reqBuffer = some v) :
    (s.reqBuffer.len < need ∧ decodeOp need read s = .next s.raiseBufTooShort) ∨
      ∃ v, need ≤ s.reqBuffer.len ∧ read s.reqBuffer = some v ∧ decodeOp need read s = .next (s.respond v) := by
  unfold decodeOp
  by_cases h : s.reqBuffer.len < need
  · left; exact ⟨h, by simp [tooShort, h]⟩
  · right
    obtain ⟨v, hv⟩ := hread (by omega)
    exact ⟨v, by omega, hv, by simp [tooShort, h, hv]⟩

/-- Everything an encode can do: refused on a buffer the host may not write, the error where it is short, else the buffer
written. -/
theorem encodeOp_cases {need : Nat} {write : Buffer → Option Buffer} (s : State)
    (hwrite : need ≤ s.reqBuffer.len → ∃ b, write s.reqBuffer = some b) :
    (s.reqBuffer.writable = false ∧ encodeOp need write s = .refused (.readOnlyBuffer s.req.buf)) ∨
      (s.reqBuffer.writable = true ∧ s.reqBuffer.len < need ∧ encodeOp need write s = .next s.raiseBufTooShort) ∨
      ∃ b, s.reqBuffer.writable = true ∧ need ≤ s.reqBuffer.len ∧ write s.reqBuffer = some b ∧
        encodeOp need write s = .next (s.setBuffer s.req.buf b).respondDone := by
  unfold encodeOp
  by_cases hw : s.reqBuffer.writable = true
  · right
    by_cases h : s.reqBuffer.len < need
    · left; exact ⟨hw, h, by simp [hw, tooShort, h]⟩
    · right
      obtain ⟨b, hb⟩ := hwrite (by omega)
      exact ⟨b, hw, by omega, hb, by simp [hw, tooShort, h, hb]⟩
  · left; exact ⟨by simpa using hw, by simp [hw]⟩

end Sys2Proof.Machine
end

