-- ==== Sys2Proof/Laws/Exec.lean ====
section
/-! SUPPORT. Everything an operation can do, once; and everything a request and an answer can do. -/

namespace Sys2Proof.Machine

theorem respond_eq {N : Nat} (s : State) (v : BitVec N) : s.respond v = s.respond (v.setWidth 512) := by
  simp [State.respond]

/-- A response of any width is a response of the 512-bit port. -/
theorem respond_next {N : Nat} (s : State) (v : BitVec N) :
    ∃ w : BitVec 512, (.next (s.respond v) : Host.Outcome State Fault Refusal) = .next (s.respond w) :=
  ⟨v.setWidth 512, congrArg _ (respond_eq s v)⟩

/-- Everything an operation can do: a value in the response and nothing else changed; or `BUF_SHORT`; or an encode's bytes
written; or, for an encode only, the refusal of a read-only buffer. -/
theorem exec_cases (i : Instr) (s : State) :
    (isEncode i = false ∧ codecBytes i ≤ s.reqBuffer.len ∧ ∃ v : BitVec 512, exec i s = .next (s.respond v)) ∨
    (isEncode i = false ∧ codecBytes i = 0 ∧ ∃ v : BitVec 512, exec i s = .next (s.respond v)) ∨
    (s.reqBuffer.len < codecBytes i ∧ (isEncode i = true → s.reqBuffer.writable = true) ∧
      exec i s = .next s.raiseBufTooShort) ∨
    (isEncode i = true ∧ s.reqBuffer.writable = true ∧ codecBytes i ≤ s.reqBuffer.len ∧
      ∃ b img, s.reqBuffer.Wrote b 0 (codecBytes i) img ∧
        exec i s = .next (s.setBuffer s.req.buf b).respondDone) ∨
    (isEncode i = true ∧ s.reqBuffer.writable = false ∧ exec i s = .refused (.readOnlyBuffer s.req.buf)) := by
  cases i
  case dec512 =>
    rcases decodeOp_cases (need := 64) (read := fun b => (b.readU512 0).map U512.bits) s
        (fun h => by obtain ⟨x, hx⟩ := Buffer.readU512_isSome (off := 0) (by omega); exact ⟨_, by simp [hx]; rfl⟩)
      with ⟨hl, h⟩ | ⟨v, hl, -, h⟩
    · exact .inr (.inr (.inl ⟨hl, nofun, h⟩))
    · exact .inl ⟨rfl, hl, v, h⟩
  case dec256 =>
    rcases decodeOp_cases (need := 32) (read := fun b => (b.readU256 0).map U256.bits) s
        (fun h => by obtain ⟨x, hx⟩ := Buffer.readU256_isSome (off := 0) (by omega); exact ⟨_, by simp [hx]; rfl⟩)
      with ⟨hl, h⟩ | ⟨v, hl, -, h⟩
    · exact .inr (.inr (.inl ⟨hl, nofun, h⟩))
    · exact .inl ⟨rfl, hl, (respond_next s v).imp fun _ => h.trans⟩
  case dec128 =>
    rcases decodeOp_cases (need := 16) (read := fun b => (b.readU128 0).map U128.bits) s
        (fun h => by obtain ⟨x, hx⟩ := Buffer.readU128_isSome (off := 0) (by omega); exact ⟨_, by simp [hx]; rfl⟩)
      with ⟨hl, h⟩ | ⟨v, hl, -, h⟩
    · exact .inr (.inr (.inl ⟨hl, nofun, h⟩))
    · exact .inl ⟨rfl, hl, (respond_next s v).imp fun _ => h.trans⟩
  case enc512 =>
    rcases encodeOp_cases (need := 64) (write := fun b => b.writeU512 0 (U512.ofBits s.wide512)) s
        (fun h => Buffer.writeU512_isSome _ (by omega)) with ⟨hw, h⟩ | ⟨hw, hl, h⟩ | ⟨b, hw, hl, hb, h⟩
    · exact .inr (.inr (.inr (.inr ⟨rfl, hw, h⟩)))
    · exact .inr (.inr (.inl ⟨hl, fun _ => hw, h⟩))
    · exact .inr (.inr (.inr (.inl ⟨rfl, hw, hl, b, _, Buffer.writeU512_wrote hb, h⟩)))
  case enc256 =>
    rcases encodeOp_cases (need := 32) (write := fun b => b.writeU256 0 (U256.ofBits s.wide256)) s
        (fun h => Buffer.writeU256_isSome _ (by omega)) with ⟨hw, h⟩ | ⟨hw, hl, h⟩ | ⟨b, hw, hl, hb, h⟩
    · exact .inr (.inr (.inr (.inr ⟨rfl, hw, h⟩)))
    · exact .inr (.inr (.inl ⟨hl, fun _ => hw, h⟩))
    · exact .inr (.inr (.inr (.inl ⟨rfl, hw, hl, b, _, Buffer.writeU256_wrote hb, h⟩)))
  case enc128 =>
    rcases encodeOp_cases (need := 16) (write := fun b => b.writeU128 0 (U128.ofBits s.wide128)) s
        (fun h => Buffer.writeU128_isSome _ (by omega)) with ⟨hw, h⟩ | ⟨hw, hl, h⟩ | ⟨b, hw, hl, hb, h⟩
    · exact .inr (.inr (.inr (.inr ⟨rfl, hw, h⟩)))
    · exact .inr (.inr (.inl ⟨hl, fun _ => hw, h⟩))
    · exact .inr (.inr (.inr (.inl ⟨rfl, hw, hl, b, _, Buffer.writeU128_wrote hb, h⟩)))
  all_goals exact .inr (.inl ⟨rfl, rfl, respond_next s _⟩)

/-- Everything a request presented to a unit can do, where it is not refused: the unit exists and is idle, the word is an
operation, the host has the operand, nothing overlaps, and the transaction is in progress. -/
theorem issue_next {unit : Nat} {q : Request} {s t : State} (h : issue unit q s = .next t) :
    unit < s.build.numUnits ∧ s.busy unit = false ∧
      ∃ i w, decode s.build.narrowCodecs q.op = .ok i ∧ s.driveWide i q.w = .ok w ∧
        (∀ x ∈ s.inFlight,
          s.conflict x ⟨unit, ⟨q.op, q.s, w, q.buf⟩, q.dst⟩ = false) ∧
        t = { s with inFlight := s.inFlight ++ [⟨unit, ⟨q.op, q.s, w, q.buf⟩, q.dst⟩] } := by
  unfold issue at h
  split at h
  · next hu =>
    split at h
    · cases h
    · next hb =>
      split at h
      · cases h
      · next i hi =>
        split at h
        · cases h
        · next w hw =>
          simp only at h
          split at h
          · cases h
          · next hc =>
            cases h
            refine ⟨hu, by simpa using hb, i, w, hi, hw, fun x hx => ?_, rfl⟩
            simp only [List.any_eq_true, not_exists, not_and, Bool.not_eq_true] at hc
            exact hc x hx
  · cases h

/-- The request is accepted under those conditions. -/
theorem issue_eq_next {unit : Nat} {q : Request} {s : State} {i : Instr} {w : BitVec 512}
    (hu : unit < s.build.numUnits) (hb : s.busy unit = false) (hi : decode s.build.narrowCodecs q.op = .ok i)
    (hw : s.driveWide i q.w = .ok w)
    (hc : ∀ x ∈ s.inFlight, s.conflict x ⟨unit, ⟨q.op, q.s, w, q.buf⟩, q.dst⟩ = false) :
    issue unit q s = .next { s with inFlight := s.inFlight ++ [⟨unit, ⟨q.op, q.s, w, q.buf⟩, q.dst⟩] } := by
  have : (s.inFlight.any fun x => s.conflict x ⟨unit, ⟨q.op, q.s, w, q.buf⟩, q.dst⟩) = false := by
    simpa [List.any_eq_false] using hc
  simp [issue, hu, hb, hi, hw, this]

/-- An answer that gives a next state: the unit's outstanding request, its operation performed on the ports presented, and the
response taken by the host. -/
theorem answer_next {unit : Nat} {s t : State} (h : answer unit s = .next t) :
    ∃ p i u, s.inFlight.find? (fun p => p.unit == unit) = some p ∧ decode s.build.narrowCodecs p.ports.op = .ok i ∧
      exec i (s.present p) = .next u ∧ t = u.collect i p := by
  unfold answer at h
  split at h
  · cases h
  · next p hp =>
    split at h
    · cases h
    · next i hi =>
      unfold andThen at h
      split at h
      · next u hu => cases h; exact ⟨p, i, u, hp, hi, hu, rfl⟩
      · cases h
      · cases h

theorem answer_eq {unit : Nat} {s : State} {p : Pending} {i : Instr}
    (hp : s.inFlight.find? (fun p => p.unit == unit) = some p) (hi : decode s.build.narrowCodecs p.ports.op = .ok i) :
    answer unit s = andThen (exec i (s.present p)) (fun t => .next (t.collect i p)) := by
  simp [answer, hp, hi]

theorem andThen_next {o : Host.Outcome State Fault Refusal} {f : State → Host.Outcome State Fault Refusal} {t : State}
    (h : andThen o f = .next t) : ∃ u, o = .next u ∧ f u = .next t := by
  unfold andThen at h
  split at h
  · next u => exact ⟨u, rfl, h⟩
  · cases h
  · cases h

/-! Runs of several steps. -/

theorem run_next {M : Host.Core} {s t : M.State} (k : Nat) (h : M.step s = .next t) : M.run (k + 1) s = M.run k t := by
  rw [Host.Core.run.eq_def]; simp [h]

theorem run_fault {M : Host.Core} {s : M.State} {r : M.Fault} (k : Nat) (h : M.step s = .fault r) :
    M.run (k + 1) s = .fault r := by
  rw [Host.Core.run.eq_def]; simp [h]

theorem run_refused {M : Host.Core} {s : M.State} {r : M.Refusal} (k : Nat) (h : M.step s = .refused r) :
    M.run (k + 1) s = .refused r := by
  rw [Host.Core.run.eq_def]; simp [h]

/-- A run is a step and the rest of the run. -/
theorem core_run_succ (k : Nat) (s : State) : core.run (k + 1) s = andThen (step s) (fun t => core.run k t) := by
  cases h : step s with
  | next t => exact run_next (M := core) k h
  | fault r => exact run_fault (M := core) k h
  | refused r => exact run_refused (M := core) k h

end Sys2Proof.Machine
end

