-- ==== Sys2Proof/Laws/PerInstr.lean ====
section
/-! SUPPORT. Per instruction: its word decodes to it, and the word's class field agrees with what the operation reads and
whether a build without the option has it. -/

namespace Sys2Proof.Laws

/-- The family `Encoding` (R51 to R56): the word decodes back; the class says what the operation reads (R55); the option's
words are exactly those a base build reserves (R54). -/
def Encoding.Statement (i : Instr) : Prop :=
  decode true (encode i) = .ok i ∧
    (opCls (encode i) = 0b00#2 ↔ (Machine.scalarOperand i).isSome = true) ∧
    (opCls (encode i) = 0b01#2 ↔ ((Machine.wideOperandType i).isSome = true ∧ (Machine.resultType i).isSome = true)) ∧
    (opCls (encode i) = 0b10#2 ↔ 0 < Machine.codecBytes i) ∧
    (i.wf false = false ↔ decode false (encode i) = .error .narrowCodecAbsent)

theorem Encoding.u128FromInt : Encoding.Statement .u128FromInt := by unfold Encoding.Statement; decide
theorem Encoding.u128FromUint : Encoding.Statement .u128FromUint := by unfold Encoding.Statement; decide
theorem Encoding.s128FromInt : Encoding.Statement .s128FromInt := by unfold Encoding.Statement; decide
theorem Encoding.d128FromInt : Encoding.Statement .d128FromInt := by unfold Encoding.Statement; decide
theorem Encoding.u256FromInt : Encoding.Statement .u256FromInt := by unfold Encoding.Statement; decide
theorem Encoding.u256FromUint : Encoding.Statement .u256FromUint := by unfold Encoding.Statement; decide
theorem Encoding.s256FromInt : Encoding.Statement .s256FromInt := by unfold Encoding.Statement; decide
theorem Encoding.d256FromInt : Encoding.Statement .d256FromInt := by unfold Encoding.Statement; decide
theorem Encoding.u512FromInt : Encoding.Statement .u512FromInt := by unfold Encoding.Statement; decide
theorem Encoding.u512FromUint : Encoding.Statement .u512FromUint := by unfold Encoding.Statement; decide
theorem Encoding.s512FromInt : Encoding.Statement .s512FromInt := by unfold Encoding.Statement; decide
theorem Encoding.d512FromInt : Encoding.Statement .d512FromInt := by unfold Encoding.Statement; decide
theorem Encoding.cast128US : Encoding.Statement .cast128US := by unfold Encoding.Statement; decide
theorem Encoding.cast128UD : Encoding.Statement .cast128UD := by unfold Encoding.Statement; decide
theorem Encoding.cast128SU : Encoding.Statement .cast128SU := by unfold Encoding.Statement; decide
theorem Encoding.cast128SD : Encoding.Statement .cast128SD := by unfold Encoding.Statement; decide
theorem Encoding.cast128DU : Encoding.Statement .cast128DU := by unfold Encoding.Statement; decide
theorem Encoding.cast128DS : Encoding.Statement .cast128DS := by unfold Encoding.Statement; decide
theorem Encoding.cast256US : Encoding.Statement .cast256US := by unfold Encoding.Statement; decide
theorem Encoding.cast256UD : Encoding.Statement .cast256UD := by unfold Encoding.Statement; decide
theorem Encoding.cast256SU : Encoding.Statement .cast256SU := by unfold Encoding.Statement; decide
theorem Encoding.cast256SD : Encoding.Statement .cast256SD := by unfold Encoding.Statement; decide
theorem Encoding.cast256DU : Encoding.Statement .cast256DU := by unfold Encoding.Statement; decide
theorem Encoding.cast256DS : Encoding.Statement .cast256DS := by unfold Encoding.Statement; decide
theorem Encoding.cast512US : Encoding.Statement .cast512US := by unfold Encoding.Statement; decide
theorem Encoding.cast512UD : Encoding.Statement .cast512UD := by unfold Encoding.Statement; decide
theorem Encoding.cast512SU : Encoding.Statement .cast512SU := by unfold Encoding.Statement; decide
theorem Encoding.cast512SD : Encoding.Statement .cast512SD := by unfold Encoding.Statement; decide
theorem Encoding.cast512DU : Encoding.Statement .cast512DU := by unfold Encoding.Statement; decide
theorem Encoding.cast512DS : Encoding.Statement .cast512DS := by unfold Encoding.Statement; decide
theorem Encoding.dec512 : Encoding.Statement .dec512 := by unfold Encoding.Statement; decide
theorem Encoding.enc512 : Encoding.Statement .enc512 := by unfold Encoding.Statement; decide
theorem Encoding.dec128 : Encoding.Statement .dec128 := by unfold Encoding.Statement; decide
theorem Encoding.enc128 : Encoding.Statement .enc128 := by unfold Encoding.Statement; decide
theorem Encoding.dec256 : Encoding.Statement .dec256 := by unfold Encoding.Statement; decide
theorem Encoding.enc256 : Encoding.Statement .enc256 := by unfold Encoding.Statement; decide

end Sys2Proof.Laws
end

