-- ==== Sys2Proof/Laws/System.lean ====
section
/-! SUPPORT. Everything each move of the host can do, once; and how little of the buffers the transactions in progress see. -/

namespace Sys2Proof.Machine

/-- A step with a move left performs it on the state without it. -/
theorem step_cons {s : State} {m : HostMove} {rest : List HostMove} (h : s.script = m :: rest) :
    step s = perform m { s with script := rest } := by
  simp [step, advance, h]

/-- With no move left and nothing outstanding a step changes nothing. -/
theorem step_idle {s : State} (h : s.script = []) (hf : s.inFlight = []) : step s = .next s := by
  simp [step, advance, drain, h, hf]

/-- With no move left a step answers the oldest request outstanding. -/
theorem step_drain {s : State} {p : Pending} {ps : List Pending} (h : s.script = []) (hf : s.inFlight = p :: ps) :
    step s = answer p.unit s := by
  simp [step, advance, drain, h, hf]

/-- Everything a step can do: nothing more to do, an outstanding request answered, or the next move performed. -/
theorem step_cases (s : State) :
    (s.script = [] ∧ s.inFlight = [] ∧ step s = .next s) ∨
    (s.script = [] ∧ ∃ p ps, s.inFlight = p :: ps ∧ step s = answer p.unit s) ∨
    (∃ m rest, s.script = m :: rest ∧ step s = perform m { s with script := rest }) := by
  cases h : s.script with
  | cons m rest => exact .inr (.inr ⟨m, rest, rfl, step_cons h⟩)
  | nil =>
    cases hf : s.inFlight with
    | nil => exact .inl ⟨rfl, rfl, step_idle h hf⟩
    | cons p ps => exact .inr (.inl ⟨rfl, p, ps, rfl, step_drain h hf⟩)

/-- A host store that gives a next state: nobody uses those bytes, the host may write the buffer, the offset exists, and that
byte changes. -/
theorem hostStore_next {buf off : Nat} {v : Byte} {s t : State} (h : hostStore buf off v s = .next t) :
    (64 ≤ off ∨ ∀ p ∈ s.inFlight, s.uses p buf = false) ∧ (s.buffer buf).writable = true ∧
      ∃ b, (s.buffer buf).store off v = some b ∧ t = s.setBuffer buf b := by
  unfold hostStore at h
  split at h
  · cases h
  · next hr =>
    split at h
    · next hw =>
      split at h
      · next b hb =>
        cases h
        refine ⟨?_, hw, b, hb, rfl⟩
        by_cases ho : off < 64
        · refine .inr fun p hp => ?_
          simp only [ho, decide_true, Bool.true_and, List.any_eq_true, not_exists, not_and, Bool.not_eq_true] at hr
          exact hr p hp
        · exact .inl (by omega)
      · cases h
    · cases h

/-- A host copy that gives a next state binds the held value to the new name. -/
theorem hostCopy_next {dst src : Nat} {s t : State} (h : hostCopy dst src s = .next t) :
    ∃ v, s.value? src = some v ∧ t = { s with values := putValue s.values dst v } := by
  unfold hostCopy at h
  split at h
  · next v hv => cases h; exact ⟨v, hv, rfl⟩
  · cases h

/-- A new buffer that gives a next state stands after the others, under a number no transaction in progress uses. -/
theorem hostAddBuffer_next {w : Bool} {bytes : List Byte} {s t : State} (h : hostAddBuffer w bytes s = .next t) :
    (∀ p ∈ s.inFlight, s.uses p s.buffers.length = false) ∧
      t = { s with buffers := s.buffers ++ [Buffer.ofBytes w bytes] } := by
  unfold hostAddBuffer at h
  split at h
  · cases h
  · next hr =>
    cases h
    simp only [List.any_eq_true, not_exists, not_and, Bool.not_eq_true] at hr
    exact ⟨hr, rfl⟩

/-- A reset that gives a next state comes between transactions and changes the response ports only. -/
theorem hostReset_next {s t : State} (h : hostReset s = .next t) :
    s.inFlight = [] ∧ ∃ ports, t = { s with resp := ports, freeCount := s.freeCount + 1 } := by
  unfold hostReset at h
  split at h
  · next hn => cases h; exact ⟨hn, _, rfl⟩
  · cases h

/-- A transaction that gives a next state is the request accepted, and then its answer. -/
theorem transact_next {unit : Nat} {q : Request} {s t : State} (h : perform (.transact unit q) s = .next t) :
    ∃ u, issue unit q s = .next u ∧ answer unit u = .next t := andThen_next h

/-! What the transactions in progress see of the buffers: only their lengths. -/

theorem State.pendingInstr_congr {s t : State} (h : s.build = t.build) (p : Pending) :
    s.pendingInstr p = t.pendingInstr p := by
  unfold State.pendingInstr; rw [h]

theorem State.pendingWrites_congr {s t : State} (h : s.build = t.build) (p : Pending) :
    s.pendingWrites p = t.pendingWrites p := by
  unfold State.pendingWrites; rw [State.pendingInstr_congr h]

theorem State.extent_congr {s t : State} (h : s.build = t.build) (p : Pending)
    (hl : (s.buffer p.ports.buf).len = (t.buffer p.ports.buf).len) : s.extent p = t.extent p := by
  unfold State.extent tooShort; rw [State.pendingInstr_congr h, hl]

theorem State.conflict_congr {s t : State} (h : s.build = t.build) (p q : Pending) (hp : s.extent p = t.extent p)
    (hq : s.extent q = t.extent q) : s.conflict p q = t.conflict p q := by
  unfold State.conflict; rw [State.pendingWrites_congr h, State.pendingWrites_congr h, hp, hq]

/-- A transaction that uses no buffer of its number has no extent. -/
theorem State.extent_of_not_uses {s : State} {p : Pending} (h : s.uses p p.ports.buf = false) : s.extent p = 0 := by
  unfold State.uses at h
  unfold State.extent
  cases hi : s.pendingInstr p with
  | none => rfl
  | some i =>
    simp only [hi, beq_self_eq_true, Bool.true_and, decide_eq_false_iff_not, Nat.not_lt, Nat.le_zero] at h
    simp [h]

/-- An operation that gives a next state keeps the build, the transactions, every buffer's length and mark, and the buffers'
form. -/
theorem exec_keeps {i : Instr} {s t : State} (h : exec i s = .next t) :
    t.build = s.build ∧ t.inFlight = s.inFlight ∧ t.buffers.length = s.buffers.length ∧
      (∀ k, (t.buffer k).len = (s.buffer k).len ∧ (t.buffer k).writable = (s.buffer k).writable) ∧
      ((∀ b ∈ s.buffers, b.wf = true) → ∀ b ∈ t.buffers, b.wf = true) := by
  rcases exec_cases i s with ⟨-, -, v, e⟩ | ⟨-, -, v, e⟩ | ⟨-, -, e⟩ | ⟨-, -, hl, b, img, hb, e⟩ | ⟨-, -, e⟩ <;> rw [e] at h
  · cases h; exact ⟨rfl, rfl, rfl, fun _ => ⟨rfl, rfl⟩, id⟩
  · cases h; exact ⟨rfl, rfl, rfl, fun _ => ⟨rfl, rfl⟩, id⟩
  · cases h; exact ⟨rfl, rfl, rfl, fun _ => ⟨rfl, rfl⟩, id⟩
  · cases h
    refine ⟨rfl, rfl, by simp [State.respondDone, State.respondNoValue], fun k => ?_, fun hw c hc => ?_⟩
    · rw [State.buffer_congr (s := (s.setBuffer s.req.buf b).respondDone) (t := s.setBuffer s.req.buf b) rfl k,
        State.buffer_setBuffer]
      split
      · next hk => rw [← hk.1]; exact ⟨hb.len, hb.writable⟩
      · exact ⟨rfl, rfl⟩
    · rcases List.mem_or_eq_of_mem_set (show c ∈ s.buffers.set s.req.buf b from hc) with hc | rfl
      · exact hw c hc
      · refine hb.wf ?_
        show (s.buffers.getD s.req.buf Buffer.empty).wf = true
        rw [List.getD_eq_getElem?_getD]
        cases hg : s.buffers[s.req.buf]? with
        | none => rfl
        | some d => exact hw d (List.mem_of_getElem? hg)
  · cases h

end Sys2Proof.Machine
end

