-- ==== Sys2Proof/Tests/Slice0.lean ====
section
/-! SUPPORT. The model's own tests: ill-formed terms refused, the words of the encoding section, one operation at a time
with the results of 95_test_vectors.md, and a concrete state for the hypotheses of every statement that has some. -/

open Sys2Proof Sys2Proof.Machine

namespace Sys2Proof.Tests

/-! The kernel evaluations below one after another, so that they do not each hold a thread. -/
set_option Elab.async false

/-! Helpers. -/

/-- The 512-bit pattern of lanes listed from lane 0 up. -/
def vec (ls : List Nat) : BitVec 512 := BitVec.ofNat 512 (ls.foldr (fun l acc => l + 2 ^ 64 * acc) 0)

def ones : Nat := 0xFFFFFFFFFFFFFFFF

/-- `00 01 02 ...`, n bytes. -/
def counting (n : Nat) : List Byte := (List.range n).map (BitVec.ofNat 8)

/-- Reset, with request ports that read the scalar. -/
def onScalar (s : Nat) : State := { State.reset with req := { op := 0#8, s := BitVec.ofNat 64 s, w := 0#512, buf := 0 } }

/-- Reset, with request ports that read the wide operand; every other port is set too, and must not matter. -/
def onWide (ls : List Nat) : State :=
  { State.reset with req := { op := 0#8, s := 0x5555555555555555#64, w := vec ls, buf := 3 } }

/-- Reset, with one buffer handed over. -/
def onBuffer (writable : Bool) (bytes : List Byte) (ls : List Nat) : State :=
  { State.reset with
    req := { op := 0#8, s := 0#64, w := vec ls, buf := 0 }
    buffers := [Buffer.ofBytes writable bytes] }

abbrev Out := Host.Outcome State Fault Refusal

/-- The status and the value of a response that has a value. -/
def result (o : Out) : Option (BitVec 512) :=
  match o with
  | .next t => if t.resp.status = .ok then some t.resp.r else none
  | .fault _ => none
  | .refused _ => none

def status (o : Out) : Option Status :=
  match o with
  | .next t => some t.resp.status
  | .fault _ => none
  | .refused _ => none

/-- The first n bytes of buffer 0 afterwards. -/
def bytes (n : Nat) (o : Out) : Option (List Byte) :=
  match o with
  | .next t => some ((List.range n).map (t.buffer 0).byte)
  | .fault _ => none
  | .refused _ => none

def refusal (o : Out) : Option Refusal :=
  match o with
  | .next _ => none
  | .fault _ => none
  | .refused r => some r

def isNext (o : Out) : Bool := (status o).isSome

/-- The next state, where there is one. -/
def after (o : Out) : State :=
  match o with
  | .next t => t
  | .fault _ => State.reset
  | .refused _ => State.reset

theorem next_after {o : Out} (h : isNext o = true) : o = .next (after o) := by
  cases o with
  | next t => rfl
  | fault r => cases h
  | refused r => cases h

/-! Well-formedness: what an assembler does not accept. -/

def held128 : List (Nat × WideValue) := [(7, .s128 ⟨0x2A#64, 0#64⟩)]

/-- The option's codecs are no operations of the base configuration (R54). -/
theorem test_narrow_codecs_ill_formed_in_base :
    Instr.wf false .dec128 = false ∧ Instr.wf false .enc128 = false ∧ Instr.wf false .dec256 = false ∧
      Instr.wf false .enc256 = false ∧ Instr.wf true .dec128 = true ∧ Instr.wf false .dec512 = true := by decide

/-- `ENC512` of a value held as S128 (R60). -/
theorem test_operand_of_wrong_type_ill_formed :
    Request.wf false held128 { op := 0xA4#8, s := 0#64, w := .held 7, buf := 0, dst := none } = false := by decide

/-- `CAST128.U.S` of a name that holds nothing (R60). -/
theorem test_operand_not_held_ill_formed :
    Request.wf false held128 { op := 0x41#8, s := 0#64, w := .held 8, buf := 0, dst := some 1 } = false := by decide

/-- An encode has no result to name (R55). -/
theorem test_named_result_of_an_encode_ill_formed :
    Request.wf false held128 { op := 0xA4#8, s := 0#64, w := .port 0#512, buf := 0, dst := some 1 } = false := by decide

/-- A reserved word (R57). -/
theorem test_reserved_word_ill_formed :
    Request.wf true held128 { op := 0x25#8, s := 0#64, w := .port 0#512, buf := 0, dst := none } = false := by decide

/-- `%1 = CAST128.U.S %7` (R60). -/
theorem test_typed_line_well_formed :
    Request.wf false held128 { op := 0x41#8, s := 0#64, w := .held 7, buf := 0, dst := some 1 } = true := by decide

/-! Decoding: the words of R56's binary column, field by field. -/

theorem test_decode_conv_128 :
    decode false 0b00000000#8 = .ok .u128FromInt ∧
    decode false 0b00000001#8 = .ok .u128FromUint ∧
    decode false 0b00000100#8 = .ok .s128FromInt ∧
    decode false 0b00001000#8 = .ok .d128FromInt := by decide

theorem test_decode_conv_256 :
    decode false 0b00010000#8 = .ok .u256FromInt ∧
    decode false 0b00010001#8 = .ok .u256FromUint ∧
    decode false 0b00010100#8 = .ok .s256FromInt ∧
    decode false 0b00011000#8 = .ok .d256FromInt := by decide

theorem test_decode_conv_512 :
    decode false 0b00100000#8 = .ok .u512FromInt ∧
    decode false 0b00100001#8 = .ok .u512FromUint ∧
    decode false 0b00100100#8 = .ok .s512FromInt ∧
    decode false 0b00101000#8 = .ok .d512FromInt := by decide

theorem test_decode_cast_128 :
    decode false 0b01000001#8 = .ok .cast128US ∧
    decode false 0b01000010#8 = .ok .cast128UD ∧
    decode false 0b01000100#8 = .ok .cast128SU ∧
    decode false 0b01000110#8 = .ok .cast128SD ∧
    decode false 0b01001000#8 = .ok .cast128DU ∧
    decode false 0b01001001#8 = .ok .cast128DS := by decide

theorem test_decode_cast_256 :
    decode false 0b01010001#8 = .ok .cast256US ∧
    decode false 0b01010010#8 = .ok .cast256UD ∧
    decode false 0b01010100#8 = .ok .cast256SU ∧
    decode false 0b01010110#8 = .ok .cast256SD ∧
    decode false 0b01011000#8 = .ok .cast256DU ∧
    decode false 0b01011001#8 = .ok .cast256DS := by decide

theorem test_decode_cast_512 :
    decode false 0b01100001#8 = .ok .cast512US ∧
    decode false 0b01100010#8 = .ok .cast512UD ∧
    decode false 0b01100100#8 = .ok .cast512SU ∧
    decode false 0b01100110#8 = .ok .cast512SD ∧
    decode false 0b01101000#8 = .ok .cast512DU ∧
    decode false 0b01101001#8 = .ok .cast512DS := by decide

theorem test_decode_codec_512 :
    decode false 0b10100000#8 = .ok .dec512 ∧
    decode false 0b10100100#8 = .ok .enc512 := by decide

theorem test_decode_narrow_codecs :
    decode true 0b10000000#8 = .ok .dec128 ∧
    decode true 0b10000100#8 = .ok .enc128 ∧
    decode true 0b10010000#8 = .ok .dec256 ∧
    decode true 0b10010100#8 = .ok .enc256 := by decide

/-- The reserved words of 95_test_vectors.md §2.8, each for the reason given there. -/
theorem test_reserved_words :
    decode true 0x25#8 = .error .noSuchConstructor ∧ decode true 0x29#8 = .error .noSuchConstructor ∧
    decode true 0x22#8 = .error .reservedScalarKind ∧ decode true 0x2C#8 = .error .reservedDestType ∧
    decode true 0x34#8 = .error .reservedWidth ∧ decode true 0x60#8 = .error .castToItself ∧
    decode true 0x65#8 = .error .castToItself ∧ decode true 0x6A#8 = .error .castToItself ∧
    decode true 0x63#8 = .error .reservedSourceType ∧ decode true 0xA1#8 = .error .codecLowBits ∧
    decode true 0xA8#8 = .error .reservedDirection ∧ decode false 0x80#8 = .error .narrowCodecAbsent ∧
    decode true 0xC0#8 = .error .reservedClass ∧ decode true 0xFF#8 = .error .reservedClass := by decide

/-- The word is the first byte and the rest is left (R50). -/
theorem test_decode_bytes :
    (decodeBytes false [0x24#8, 0xFF#8]).map Prod.snd = some [0xFF#8] ∧ (decodeBytes false []).isNone = true := by decide

/-! The constructors (95_test_vectors.md S1 to S4, §2.1, §2.2, §2.3, §2.6). -/

def D6 : Nat := 0xFFFFFFFFFFFFFFD6
def minInt : Nat := 0x8000000000000000
def maxInt : Nat := 0x7FFFFFFFFFFFFFFF
def beef : Nat := 0xDEADBEEFCAFEBABE

theorem test_u128FromInt :
    result (exec .u128FromInt (onScalar minInt)) = some (vec [minInt, ones]) := by decide +kernel

theorem test_u256FromInt :
    result (exec .u256FromInt (onScalar D6)) = some (vec [D6, ones, ones, ones]) := by decide +kernel

theorem test_u512FromInt :
    result (exec .u512FromInt (onScalar ones)) = some (vec [ones, ones, ones, ones, ones, ones, ones, ones]) ∧
    result (exec .u512FromInt (onScalar 0)) = some (vec [0, 0, 0, 0, 0, 0, 0, 0]) := by decide +kernel

theorem test_s128FromInt :
    result (exec .s128FromInt (onScalar minInt)) = some (vec [minInt, ones]) ∧
    result (exec .s128FromInt (onScalar maxInt)) = some (vec [maxInt, 0]) := by decide +kernel

theorem test_s256FromInt :
    result (exec .s256FromInt (onScalar D6)) = some (vec [D6, ones, ones, ones]) ∧
    result (exec .s256FromInt (onScalar 0x2A)) = some (vec [0x2A, 0, 0, 0]) := by decide +kernel

theorem test_s512FromInt :
    result (exec .s512FromInt (onScalar 0)) = some (vec [0, 0, 0, 0, 0, 0, 0, 0]) ∧
    result (exec .s512FromInt (onScalar ones)) = some (vec [ones, ones, ones, ones, ones, ones, ones, ones]) ∧
    result (exec .s512FromInt (onScalar 0x2A)) = some (vec [0x2A, 0, 0, 0, 0, 0, 0, 0]) ∧
    result (exec .s512FromInt (onScalar D6)) = some (vec [D6, ones, ones, ones, ones, ones, ones, ones]) := by decide +kernel

theorem test_d128FromInt :
    result (exec .d128FromInt (onScalar D6)) = some (vec [D6, ones]) := by decide +kernel

theorem test_d256FromInt :
    result (exec .d256FromInt (onScalar minInt)) = some (vec [minInt, ones, ones, ones]) := by decide +kernel

theorem test_d512FromInt :
    result (exec .d512FromInt (onScalar maxInt)) = some (vec [maxInt, 0, 0, 0, 0, 0, 0, 0]) ∧
    result (exec .d512FromInt (onScalar ones)) = some (vec [ones, ones, ones, ones, ones, ones, ones, ones]) := by decide +kernel

theorem test_u128FromUint :
    result (exec .u128FromUint (onScalar ones)) = some (vec [ones, 0]) ∧
    result (exec .u128FromUint (onScalar beef)) = some (vec [beef, 0]) := by decide +kernel

theorem test_u256FromUint :
    result (exec .u256FromUint (onScalar ones)) = some (vec [ones, 0, 0, 0]) ∧
    result (exec .u256FromUint (onScalar beef)) = some (vec [beef, 0, 0, 0]) := by decide +kernel

theorem test_u512FromUint :
    result (exec .u512FromUint (onScalar ones)) = some (vec [ones, 0, 0, 0, 0, 0, 0, 0]) ∧
    result (exec .u512FromUint (onScalar beef)) = some (vec [beef, 0, 0, 0, 0, 0, 0, 0]) := by decide +kernel

/-! The casts (95_test_vectors.md §2.4, §2.6): lanes out equal lanes in, and what stands above the width is ignored. -/

theorem test_cast128US :
    result (exec .cast128US (onWide [ones, ones, beef, beef, beef, beef, beef, beef])) = some (vec [ones, ones]) := by decide +kernel

theorem test_cast128SU :
    result (exec .cast128SU (onWide [0, minInt, beef, beef, beef, beef, beef, beef])) = some (vec [0, minInt]) := by decide +kernel

theorem test_cast256US :
    result (exec .cast256US (onWide [D6, ones, ones, ones, beef, beef, beef, beef])) = some (vec [D6, ones, ones, ones]) := by decide +kernel

theorem test_cast256SU :
    result (exec .cast256SU (onWide [ones, ones, ones, ones, beef, beef, beef, beef])) = some (vec [ones, ones, ones, ones]) := by decide +kernel

theorem test_cast512US :
    result (exec .cast512US (onWide [D6, ones, ones, ones, ones, ones, ones, ones])) = some (vec [D6, ones, ones, ones, ones, ones, ones, ones]) := by decide +kernel

theorem test_cast512SU :
    result (exec .cast512SU (onWide [0, 0, 0, 0, 0, 0, 0, minInt])) = some (vec [0, 0, 0, 0, 0, 0, 0, minInt]) := by decide +kernel

theorem test_cast128DS :
    result (exec .cast128DS (onWide [D6, ones, beef, beef, beef, beef, beef, beef])) = some (vec [D6, ones]) := by decide +kernel

theorem test_cast128SD :
    result (exec .cast128SD (onWide [0x2A, 0, beef, beef, beef, beef, beef, beef])) = some (vec [0x2A, 0]) := by decide +kernel

theorem test_cast128DU :
    result (exec .cast128DU (onWide [ones, ones, beef, beef, beef, beef, beef, beef])) = some (vec [ones, ones]) := by decide +kernel

theorem test_cast128UD :
    result (exec .cast128UD (onWide [ones, ones, beef, beef, beef, beef, beef, beef])) = some (vec [ones, ones]) := by decide +kernel

theorem test_cast256DS :
    result (exec .cast256DS (onWide [ones, ones, ones, ones, beef, beef, beef, beef])) = some (vec [ones, ones, ones, ones]) := by decide +kernel

theorem test_cast256SD :
    result (exec .cast256SD (onWide [D6, ones, ones, ones, beef, beef, beef, beef])) = some (vec [D6, ones, ones, ones]) := by decide +kernel

theorem test_cast256DU :
    result (exec .cast256DU (onWide [0x2A, 0, 0, 0, beef, beef, beef, beef])) = some (vec [0x2A, 0, 0, 0]) := by decide +kernel

theorem test_cast256UD :
    result (exec .cast256UD (onWide [0x2A, 0, 0, 0, beef, beef, beef, beef])) = some (vec [0x2A, 0, 0, 0]) := by decide +kernel

theorem test_cast512DS :
    result (exec .cast512DS (onWide [D6, ones, ones, ones, ones, ones, ones, ones])) = some (vec [D6, ones, ones, ones, ones, ones, ones, ones]) := by decide +kernel

theorem test_cast512SD :
    result (exec .cast512SD (onWide [0, 0, 0, 0, 0, 0, 0, 0])) = some (vec [0, 0, 0, 0, 0, 0, 0, 0]) := by decide +kernel

theorem test_cast512DU :
    result (exec .cast512DU (onWide [ones, ones, ones, ones, ones, ones, ones, ones])) = some (vec [ones, ones, ones, ones, ones, ones, ones, ones]) := by decide +kernel

theorem test_cast512UD :
    result (exec .cast512UD (onWide [ones, ones, ones, ones, ones, ones, ones, ones])) = some (vec [ones, ones, ones, ones, ones, ones, ones, ones]) := by decide +kernel

/-! The codecs (95_test_vectors.md S5, S6, §2.5, §2.7). -/

def counted : List Nat :=
  [0x0706050403020100, 0x0F0E0D0C0B0A0908, 0x1716151413121110, 0x1F1E1D1C1B1A1918,
    0x2726252423222120, 0x2F2E2D2C2B2A2928, 0x3736353433323130, 0x3F3E3D3C3B3A3938]

def fives (n : Nat) : List Byte := List.replicate n 0x55#8

theorem test_dec512 :
    result (exec .dec512 (onBuffer false (counting 64) [])) = some (vec counted) ∧
    result (exec .dec512 (onBuffer true (counting 80) [])) = some (vec counted) := by decide +kernel

theorem test_dec512_short :
    status (exec .dec512 (onBuffer true (counting 63) [])) = some .bufShort ∧
    status (exec .dec512 (onBuffer true [] [])) = some .bufShort := by decide +kernel

theorem test_enc512 :
    bytes 64 (exec .enc512 (onBuffer true (fives 64) counted)) = some (counting 64) ∧
    bytes 80 (exec .enc512 (onBuffer true (fives 80) [beef])) =
      some ([0xBE#8, 0xBA#8, 0xFE#8, 0xCA#8, 0xEF#8, 0xBE#8, 0xAD#8, 0xDE#8] ++ List.replicate 56 0#8 ++ fives 16) := by decide +kernel

theorem test_enc512_short_or_read_only :
    status (exec .enc512 (onBuffer true (fives 63) [0x2A])) = some .bufShort ∧
    bytes 63 (exec .enc512 (onBuffer true (fives 63) [0x2A])) = some (fives 63) ∧
    refusal (exec .enc512 (onBuffer false (fives 64) [0x2A])) = some (.readOnlyBuffer 0) := by decide +kernel

theorem test_dec128 :
    result (exec .dec128 (onBuffer true (counting 16) [])) = some (vec (counted.take 2)) := by decide +kernel

theorem test_dec128_short :
    status (exec .dec128 (onBuffer true (counting 15) [])) = some .bufShort := by decide +kernel

theorem test_enc128 :
    bytes 16 (exec .enc128 (onBuffer true (fives 16) [D6, ones])) = some (0xD6#8 :: List.replicate 15 0xFF#8) := by decide +kernel

theorem test_enc128_short :
    status (exec .enc128 (onBuffer true (fives 15) [D6, ones])) = some .bufShort ∧
    bytes 15 (exec .enc128 (onBuffer true (fives 15) [D6, ones])) = some (fives 15) := by decide +kernel

theorem test_dec256 :
    result (exec .dec256 (onBuffer true (counting 32) [])) = some (vec (counted.take 4)) := by decide +kernel

theorem test_dec256_short :
    status (exec .dec256 (onBuffer true (counting 31) [])) = some .bufShort := by decide +kernel

theorem test_enc256 :
    bytes 40 (exec .enc256 (onBuffer true (fives 40) [0x2A])) =
      some ((0x2A#8 :: List.replicate 31 0#8) ++ fives 8) := by decide +kernel

theorem test_enc256_short :
    status (exec .enc256 (onBuffer true (fives 31) [0x2A])) = some .bufShort ∧
    bytes 31 (exec .enc256 (onBuffer true (fives 31) [0x2A])) = some (fives 31) := by decide +kernel

/-! A step. -/

/-- The word placed is the operation the next step performs, a codec's with its 64 bytes (log entry 8). -/
theorem test_step_of_a_placed_word :
    (after (step (State.reset.withFetchWord 8 0x24))).req.op = 0x24#8 ∧
    (after (step (State.reset.withFetchWord 8 0xA0))).resp = { status := .ok, r := 0#512 } ∧
    status (step (State.reset.withFetchWord 8 0x94)) = some .ok ∧
    refusal (step (State.reset.withFetchWord 8 0x25)) = some (.reservedOp 0x25#8 .noSuchConstructor) := by decide +kernel

/-- The table's numbering (R50). -/
theorem test_decode_table_word :
    decodeTableWord 8 0x61 = some .cast512US ∧ decodeTableWord 8 0x80 = some .dec128 ∧ decodeTableWord 8 0xC0 = none := by
  decide

/-- A script of moves from reset. -/
def scripted (moves : List HostMove) : State := { State.reset with script := moves }

/-- A request of a word with a pattern on the wide port. -/
def asking (op : BitVec 8) (buf : Nat) (dst : Option Nat) : Request :=
  { op := op, s := 0x2A#64, w := .port 0#512, buf := buf, dst := dst }

theorem test_moves_that_have_no_step :
    refusal (step (scripted [.transact 1 (asking 0x24#8 0 none)])) = some (.noSuchUnit 1) ∧
    refusal (step (scripted [.answer 0])) = some (.unitIdle 0) ∧
    refusal (step (scripted [.copy 1 2])) = some (.valueNotHeld 2) ∧
    isFault (step { onBuffer true (fives 4) [] with script := [.store 0 4 1#8] }) = true ∧
    refusal (step { onBuffer false (fives 4) [] with script := [.store 0 3 1#8] }) = some (.readOnlyBuffer 0) := by
  decide +kernel

theorem test_a_request_leaves_its_unit_busy :
    (after (step (scripted [.issue 0 (asking 0x24#8 0 (some 1))]))).busy 0 = true ∧
    (after (step (scripted [.transact 0 (asking 0x04#8 0 (some 1))]))).value? 1 = some (.s128 ⟨0x2A#64, 0#64⟩) := by
  decide +kernel

theorem test_host_moves :
    bytes 4 (step { onBuffer true (fives 4) [] with script := [.store 0 3 1#8] }) = some [0x55#8, 0x55#8, 0x55#8, 1#8] ∧
    bytes 2 (step (scripted [.addBuffer true [1#8, 0#8]])) = some [1#8, 0#8] ∧
    isNext (step (scripted [.reset])) = true := by decide +kernel

/-! Witnesses: for each statement with hypotheses, a concrete case that meets all of them together. -/

/-- Two units, one encode and one decode in progress on two buffers. -/
def twoInFlight (d e : Option Nat) : State :=
  { State.reset with
    build := { narrowCodecs := false, numUnits := 2 }
    buffers := [Buffer.ofBytes true (fives 64), Buffer.ofBytes false (counting 64)]
    inFlight := [⟨0, ⟨0xA4#8, 0#64, vec counted, 0⟩, d⟩, ⟨1, ⟨0xA0#8, 0#64, 0#512, 1⟩, e⟩] }

theorem twoInFlight_inv (d e : Option Nat) : (twoInFlight d e).Inv where
  hasUnit := Nat.le_succ 1
  buffers := by
    intro b hb
    have : (twoInFlight none none).buffers.all Buffer.wf = true := by decide +kernel
    exact List.all_eq_true.1 this b hb
  units := by simp [twoInFlight]
  onePer := by simp [twoInFlight]
  legal := by
    have he : decode false 0xA4#8 = .ok .enc512 := by decide
    have hd : decode false 0xA0#8 = .ok .dec512 := by decide
    simp [twoInFlight, State.pendingInstr, he, hd]
  disjoint := by simp [twoInFlight, State.conflict]

theorem witness_OpcodeMapIsTheLegalWords :
    (0x94#8, Instr.enc256) ∈ opcodeMap ∧ Instr.enc256 ∈ narrowCodecs ∧ (0xA4#8, Instr.enc512) ∈ opcodeMap ∧
      Instr.enc512 ∉ narrowCodecs := by decide

/-- One reserved word for each condition on the fields. -/
theorem witness_ReservedWordsByField :
    opCls 0xC0#8 = 0b11#2 ∧ opWsel 0x34#8 = 0b11#2 ∧ (opCls 0x2C#8 = 0b00#2 ∧ opA 0x2C#8 = 0b11#2) ∧
    (opCls 0x25#8 = 0b00#2 ∧ opB 0x25#8 = 0b01#2 ∧ opA 0x25#8 = 0b01#2) ∧ (opCls 0x60#8 = 0b01#2 ∧ opA 0x60#8 = opB 0x60#8) ∧
    (opCls 0xA8#8 = 0b10#2 ∧ opA 0xA8#8 = 0b10#2) ∧ (opCls 0x90#8 = 0b10#2 ∧ opWsel 0x90#8 = 0b01#2) := by decide

theorem witness_ReservedRequestIsRefusedFirst :
    let s := scripted [.transact 0 (asking 0x25#8 0 none)]
    s.script = .transact 0 (asking 0x25#8 0 none) :: [] ∧ 0 < s.build.numUnits ∧ s.busy 0 = false ∧
      decode s.build.narrowCodecs 0x25#8 = .error .noSuchConstructor := ⟨rfl, by decide, rfl, by decide⟩

theorem witness_StepRunsTheDecodedOperation :
    let q : Request := asking 0xA4#8 0 none
    let s : State :=
      { onBuffer true (fives 64) [] with
        script := [.transact 0 q], build := { narrowCodecs := false, numUnits := 2 }
        inFlight := [⟨1, ⟨0x24#8, 0#64, 0#512, 0⟩, none⟩] }
    s.script = .transact 0 q :: [] ∧ 0 < s.build.numUnits ∧ s.busy 0 = false ∧
      decode s.build.narrowCodecs q.op = .ok .enc512 ∧ s.driveWide .enc512 q.w = .ok 0#512 ∧
      ∀ x ∈ s.inFlight, s.conflict x ⟨0, ⟨q.op, q.s, 0#512, q.buf⟩, q.dst⟩ = false :=
  ⟨rfl, by decide, rfl, by decide, rfl, by decide +kernel⟩

theorem witness_IssueThenAnswerIsOneTransaction :
    let s := scripted [.issue 0 (asking 0x24#8 0 (some 1)), .answer 0]
    s.script = .issue 0 (asking 0x24#8 0 (some 1)) :: .answer 0 :: [] ∧
      (match core.run 2 s with | .next t => t.value? 1 | _ => none) =
        some (.s512 ⟨⟨⟨0x2A#64, 0#64⟩, ⟨0#64, 0#64⟩⟩, ⟨⟨0#64, 0#64⟩, ⟨0#64, 0#64⟩⟩⟩) := ⟨rfl, by decide +kernel⟩

/-- Both forms of the hypothesis on the names. -/
theorem witness_AnswersInEitherOrderAgree (d e : Option Nat) (h : d = none ∨ d = some 0) (he : e = some 1) :
    let s := twoInFlight d e
    let a := after (answer 0 s)
    ∃ p q, s.Inv ∧ (0 : Nat) ≠ 1 ∧ s.inFlight.find? (fun x => x.unit == 0) = some p ∧
      s.inFlight.find? (fun x => x.unit == 1) = some q ∧ (p.dst = none ∨ p.dst ≠ q.dst) ∧
      answer 0 s = .next a ∧ answer 1 a = .next (after (answer 1 a)) := by
  subst he
  rcases h with rfl | rfl
  · exact ⟨_, _, twoInFlight_inv _ _, by decide, rfl, rfl, by decide, next_after (by decide +kernel),
      next_after (by decide +kernel)⟩
  · exact ⟨_, _, twoInFlight_inv _ _, by decide, rfl, rfl, by decide, next_after (by decide +kernel),
      next_after (by decide +kernel)⟩

theorem witness_RunOverIsIdle : State.reset.script = [] ∧ State.reset.inFlight = [] := ⟨rfl, rfl⟩

theorem next_of_isSome {α : Type} {x : Option α} (h : x.isSome = true) : ∃ v, x = some v := Option.isSome_iff_exists.1 h

def buf64 : Buffer := Buffer.ofBytes true (counting 64)
def beefU256 : U256 := ⟨⟨0xDEADBEEFCAFEBABE#64, 1#64⟩, ⟨2#64, 0x8000000000000000#64⟩⟩
def beefU512 : U512 := ⟨beefU256, beefU256⟩

theorem witness_LanePathsAndOffsets :
    (∃ x, buf64.readU512 0 = some x) ∧ (∃ b, buf64.writeU512 0 beefU512 = some b) ∧ 7 < 8 :=
  ⟨next_of_isSome (by decide +kernel), next_of_isSome (by decide +kernel), by decide⟩

theorem witness_ConversionIsTotalAndReadsOnlyTheScalar :
    (scalarOperand .u128FromInt).isSome = true ∧ (scalarOperand .u512FromUint).isSome = true := ⟨rfl, rfl⟩

/-- A buffer of exactly the length needed, and one byte short, for each decode. -/
theorem witness_Decodes :
    64 ≤ (onBuffer true (counting 64) []).reqBuffer.len ∧ (onBuffer true (counting 63) []).reqBuffer.len < 64 ∧
    16 ≤ (onBuffer true (counting 16) []).reqBuffer.len ∧ (onBuffer true (counting 15) []).reqBuffer.len < 16 ∧
    32 ≤ (onBuffer true (counting 32) []).reqBuffer.len ∧ (onBuffer true (counting 31) []).reqBuffer.len < 32 := by
  decide +kernel

/-- The same for each encode, the buffer one the host may write. -/
theorem witness_Encodes :
    (onBuffer true (fives 64) []).reqBuffer.writable = true ∧ 64 ≤ (onBuffer true (fives 64) []).reqBuffer.len ∧
    (onBuffer true (fives 63) []).reqBuffer.writable = true ∧ (onBuffer true (fives 63) []).reqBuffer.len < 64 ∧
    (onBuffer true (fives 16) []).reqBuffer.writable = true ∧ 16 ≤ (onBuffer true (fives 16) []).reqBuffer.len ∧
    (onBuffer true (fives 15) []).reqBuffer.writable = true ∧ (onBuffer true (fives 15) []).reqBuffer.len < 16 ∧
    (onBuffer true (fives 32) []).reqBuffer.writable = true ∧ 32 ≤ (onBuffer true (fives 32) []).reqBuffer.len ∧
    (onBuffer true (fives 31) []).reqBuffer.writable = true ∧ (onBuffer true (fives 31) []).reqBuffer.len < 32 := by
  decide +kernel

theorem witness_ShortBufferEndsTheOperation :
    (isEncode .enc512 = true → (onBuffer true (fives 63) []).reqBuffer.writable = true) ∧
    (onBuffer true (fives 63) []).reqBuffer.len < codecBytes .enc512 ∧
    (isEncode .dec512 = true → (onBuffer false (fives 64) []).reqBuffer.writable = true) ∧
    codecBytes .dec512 ≤ (onBuffer false (fives 64) []).reqBuffer.len := by decide +kernel

theorem witness_StatusReportsTheErrorExactly :
    let s := onBuffer true (fives 63) []
    exec .dec512 s = .next (after (exec .dec512 s)) ∧ (after (exec .dec512 s)).resp.status = .bufShort :=
  ⟨next_after (by decide +kernel), by decide +kernel⟩

/-- The state written, and a later state that reads the same 64 bytes. -/
theorem witness_EncodeThenDecodeReturnsTheValue :
    let s := onBuffer true (fives 80) counted
    let t := after (exec .enc512 s)
    let c := onBuffer false (counting 64) []
    s.reqBuffer.writable = true ∧ 64 ≤ s.reqBuffer.len ∧ 64 ≤ c.reqBuffer.len ∧
      ∀ a, a < 64 → c.reqBuffer.byte a = (t.buffer s.req.buf).byte a := by decide +kernel

theorem witness_DecodeThenEncodeReproducesTheBytes :
    let s := onBuffer false (counting 64) []
    let t := after (exec .dec512 s)
    let c := onBuffer true (fives 64) counted
    64 ≤ s.reqBuffer.len ∧ c.reqBuffer.writable = true ∧ 64 ≤ c.reqBuffer.len ∧ c.req.w = t.resp.r := by decide +kernel

/-- At 16 and 32 bytes, each law. -/
theorem witness_NarrowCodecsRoundTrip :
    ((onBuffer true (fives 16) counted).reqBuffer.writable = true ∧ 16 ≤ (onBuffer true (fives 16) counted).reqBuffer.len ∧
      ∀ a, a < 16 → (onBuffer false (counting 16) []).reqBuffer.byte a =
        ((after (exec .enc128 (onBuffer true (fives 16) counted))).buffer 0).byte a) ∧
    (onBuffer true (fives 16) (counted.take 2)).req.w =
      (after (exec .dec128 (onBuffer false (counting 16) []))).resp.r ∧
    ((onBuffer true (fives 32) counted).reqBuffer.writable = true ∧ 32 ≤ (onBuffer true (fives 32) counted).reqBuffer.len ∧
      ∀ a, a < 32 → (onBuffer false (counting 32) []).reqBuffer.byte a =
        ((after (exec .enc256 (onBuffer true (fives 32) counted))).buffer 0).byte a) ∧
    (onBuffer true (fives 32) (counted.take 4)).req.w =
      (after (exec .dec256 (onBuffer false (counting 32) []))).resp.r := by decide +kernel

/-- Two buffers that agree in bytes 0 to 63 and differ at offset 64. -/
theorem witness_BytesFrom64OnPlayNoPart :
    let s := onBuffer true (counting 64 ++ [0xAA#8]) []
    let t := onBuffer true (counting 64 ++ [0xBB#8, 1#8]) []
    64 ≤ s.reqBuffer.len ∧ 64 ≤ t.reqBuffer.len ∧ (∀ a, a < 64 → s.reqBuffer.byte a = t.reqBuffer.byte a) ∧
      s.reqBuffer.byte 64 ≠ t.reqBuffer.byte 64 ∧ s.reqBuffer.writable = true := by decide +kernel

theorem witness_ImageIsOneLittleEndianInteger :
    (∃ x, buf64.readU512 0 = some x) ∧ ∃ b, buf64.writeU512 0 beefU512 = some b :=
  ⟨next_of_isSome (by decide +kernel), next_of_isSome (by decide +kernel)⟩

theorem witness_ImagesNestLowThenHigh :
    (∃ b, buf64.writeU512 0 beefU512 = some b) ∧ (∃ b, buf64.writeU256 0 beefU512.low = some b) ∧
    (∃ b, buf64.writeU256 0 beefU512.high = some b) ∧ (∃ b, buf64.writeU128 0 beefU256.low = some b) ∧
    ∃ b, buf64.writeU128 0 beefU256.high = some b :=
  ⟨next_of_isSome (by decide +kernel), next_of_isSome (by decide +kernel), next_of_isSome (by decide +kernel),
    next_of_isSome (by decide +kernel), next_of_isSome (by decide +kernel)⟩

theorem witness_EncodeIsIdempotentDecodeReadsOnly :
    let s := onBuffer true (fives 64) counted
    s.reqBuffer.wf = true ∧ exec .enc512 s = .next (after (exec .enc512 s)) ∧
    exec .enc512 (after (exec .enc512 s)) = .next (after (exec .enc512 (after (exec .enc512 s)))) ∧
    exec .dec512 s = .next (after (exec .dec512 s)) ∧
    exec .dec512 (after (exec .dec512 s)) = .next (after (exec .dec512 (after (exec .dec512 s)))) ∧
    (after (exec .dec512 s)).resp.status = .ok :=
  ⟨by decide +kernel, next_after (by decide +kernel), next_after (by decide +kernel), next_after (by decide +kernel),
    next_after (by decide +kernel), by decide +kernel⟩

/-- Every encode, on a long buffer and on a short one. -/
theorem witness_ReadOnlyEncodeIsRefused :
    isEncode .enc512 = true ∧ isEncode .enc128 = true ∧ isEncode .enc256 = true ∧
      (onBuffer false (fives 64) []).reqBuffer.writable = false ∧
      (onBuffer false (fives 15) []).reqBuffer.writable = false := by decide +kernel

theorem witness_CanonicalBuffersAreUnique :
    let b := Buffer.ofBytes true [1#8, 0#8, 2#8]
    let c : Buffer := { len := 3, writable := true, cells := [(0, 1#8), (2, 2#8)] }
    b.wf = true ∧ c.wf = true ∧ b.len = c.len ∧ b.writable = c.writable ∧ ∀ a, a < b.len → b.byte a = c.byte a := by
  decide

theorem witness_EveryStepKeepsTheInvariant :
    let s := { twoInFlight none (some 1) with script := [.answer 0] }
    s.Inv ∧ step s = .next (after (step s)) :=
  have h := twoInFlight_inv none (some 1)
  ⟨⟨h.1, h.2, h.3, h.4, h.5, h.6⟩, next_after (by decide +kernel)⟩

/-- An encode that writes, with each of the four ways a byte is out of its reach. -/
theorem witness_OnlyEncodesWriteBuffers :
    let s := onBuffer true (fives 80) counted
    exec .enc512 s = .next (after (exec .enc512 s)) ∧ isEncode .dec512 = false ∧ 1 ≠ s.req.buf ∧
      (onBuffer true (fives 63) counted).reqBuffer.len < codecBytes .enc512 ∧ codecBytes .enc512 ≤ 64 :=
  ⟨next_after (by decide +kernel), by decide +kernel⟩

/-- A decode of two states that agree only where it reads: not in the buffer's mark. -/
theorem witness_ResponseDependsOnItsOperandsOnly :
    let s := onBuffer true (counting 64 ++ [1#8]) []
    let t := onBuffer false (counting 64 ++ [2#8]) [5]
    ((scalarOperand .dec512).isSome = true → s.req.s = t.req.s) ∧ wideOperandType .dec512 = none ∧
      s.reqBuffer.len = t.reqBuffer.len ∧ isEncode .dec512 = false ∧
      (∀ a, a < codecBytes .dec512 → s.reqBuffer.byte a = t.reqBuffer.byte a) ∧
      exec .dec512 s = .next (after (exec .dec512 s)) ∧ (after (exec .dec512 s)).resp.status = .ok :=
  ⟨fun _ => rfl, rfl, by decide +kernel, rfl, by decide +kernel, next_after (by decide +kernel), by decide +kernel⟩

/-- An encode of two states that agree only in its operand and in the buffer's length and mark. -/
theorem witness_ResponseDependsOnItsOperandsOnly_encode :
    let s := onBuffer true (counting 16) [5, 6, 7]
    let t := onBuffer true (fives 16) [5, 6, 8]
    wideOperandType .enc128 = some ⟨.u, .n128⟩ ∧ s.req.w.setWidth 128 = t.req.w.setWidth 128 ∧
      s.reqBuffer.len = t.reqBuffer.len ∧ s.reqBuffer.writable = t.reqBuffer.writable ∧ isEncode .enc128 = true ∧
      exec .enc128 s = .next (after (exec .enc128 s)) ∧ (after (exec .enc128 s)).resp.status = .ok :=
  ⟨rfl, by decide +kernel, by decide +kernel, by decide +kernel, rfl, next_after (by decide +kernel), by decide +kernel⟩

theorem witness_EveryOperationEnds :
    isEncode .enc512 = true → (onBuffer true [] []).reqBuffer.writable = true := fun _ => rfl

theorem witness_OnlyAHostStoreFaults :
    let s := { onBuffer true (fives 4) [] with script := [.store 0 4 1#8] }
    step s = .fault (.outsideBuffer 4) := rfl

theorem witness_TheErrorIsNotSticky :
    let s := onBuffer true (fives 63) counted
    let q : ReqPorts := { op := 0x24#8, s := 0x2A#64, w := 0#512, buf := 0 }
    exec .enc512 s = .next (after (exec .enc512 s)) ∧ (after (exec .enc512 s)).resp.status = .bufShort ∧
      exec .s512FromInt { s with req := q } = .next (after (exec .s512FromInt { s with req := q })) :=
  ⟨next_after (by decide +kernel), by decide +kernel, next_after (by decide +kernel)⟩

theorem witness_TheBuildNeverChanges :
    let s := scripted [.transact 0 (asking 0x24#8 0 (some 1))]
    step s = .next (after (step s)) := next_after (by decide +kernel)

theorem witness_HeldValuesAreNeverChanged :
    let s := scripted [.transact 0 (asking 0x24#8 0 (some 1))]
    s.script = .transact 0 (asking 0x24#8 0 (some 1)) :: [] ∧ step s = .next (after (step s)) ∧
      s.boundBy (.transact 0 (asking 0x24#8 0 (some 1))) ≠ some 2 :=
  ⟨rfl, next_after (by decide +kernel), by decide⟩

/-- With no move left, the oldest request's result is named 4. -/
theorem witness_HeldValuesAreNeverChanged_unasked :
    let s := twoInFlight (some 4) none
    s.script = [] ∧ step s = .next (after (step s)) ∧ ∀ p, s.inFlight.head? = some p → p.dst ≠ some 2 :=
  ⟨rfl, next_after (by decide +kernel), fun p h => by cases h; decide⟩

/-- A move that answers with a value, one that answers with none, a whole transaction, and a move that answers nothing. -/
theorem witness_EachTransactionGivesOneResponse :
    let s := { twoInFlight none (some 4) with script := [.answer 1] }
    let e := { twoInFlight (some 4) none with script := [.answer 0] }
    let d := scripted [.transact 0 (asking 0x18#8 0 (some 3))]
    let t := { onBuffer true (fives 4) [] with script := [.store 0 0 1#8] }
    s.script = .answer 1 :: [] ∧ step s = .next (after (step s)) ∧
    (after (step s)).responses.map Response.value =
      [some (.u512 ⟨⟨⟨0x0706050403020100#64, 0x0F0E0D0C0B0A0908#64⟩, ⟨0x1716151413121110#64, 0x1F1E1D1C1B1A1918#64⟩⟩,
        ⟨⟨0x2726252423222120#64, 0x2F2E2D2C2B2A2928#64⟩, ⟨0x3736353433323130#64, 0x3F3E3D3C3B3A3938#64⟩⟩⟩)] ∧
    e.script = .answer 0 :: [] ∧ step e = .next (after (step e)) ∧ (after (step e)).value? 4 = none ∧
    d.script = .transact 0 (asking 0x18#8 0 (some 3)) :: [] ∧ step d = .next (after (step d)) ∧
    (after (step d)).value? 3 = some (.d256 ⟨⟨0x2A#64, 0#64⟩, ⟨0#64, 0#64⟩⟩) ∧
    t.script = .store 0 0 1#8 :: [] ∧ step t = .next (after (step t)) :=
  ⟨rfl, next_after (by decide +kernel), by decide +kernel, rfl, next_after (by decide +kernel), by decide +kernel,
    rfl, next_after (by decide +kernel), by decide +kernel, rfl, next_after (by decide +kernel)⟩

theorem witness_AnAnswerRunsTheOutstandingRequest :
    let s := { twoInFlight none none with script := [.answer 1] }
    s.script = .answer 1 :: [] ∧
      s.inFlight.find? (fun x => x.unit == 1) = some ⟨1, ⟨0xA0#8, 0#64, 0#512, 1⟩, none⟩ ∧
      decode s.build.narrowCodecs 0xA0#8 = .ok .dec512 := ⟨rfl, rfl, by decide⟩

/-- With no move left: the encode is the older request, and its answer leaves the decode alone in progress. -/
theorem witness_AnAnswerRunsTheOutstandingRequest_unasked :
    let s := twoInFlight none none
    s.script = [] ∧ s.inFlight.map Pending.unit = [0, 1] ∧ decode s.build.narrowCodecs 0xA4#8 = .ok .enc512 ∧
      step s = .next (after (step s)) ∧ (after (step s)).inFlight.map Pending.unit = [1] ∧
      (after (step s)).responses.map Response.unit = [0] :=
  ⟨rfl, rfl, by decide, next_after (by decide +kernel), by decide +kernel, by decide +kernel⟩

/-- The encode in progress is on a buffer the host may write; the decode's buffer need not be. -/
theorem witness_EveryRequestIsAnswered :
    let s := twoInFlight none none
    s.Inv ∧ s.script = [] ∧ ∀ p ∈ s.inFlight, ∀ i, decode s.build.narrowCodecs p.ports.op = .ok i → isEncode i = true →
      (s.buffer p.ports.buf).writable = true := by
  refine ⟨twoInFlight_inv _ _, rfl, fun p hp i hi he => ?_⟩
  simp only [twoInFlight, List.mem_cons, List.not_mem_nil, or_false] at hp
  rcases hp with rfl | rfl
  · decide +kernel
  · have hd : decode false 0xA0#8 = .ok .dec512 := by decide
    have : (Except.ok .dec512 : Except DecodeReject Instr) = .ok i := hd.symm.trans hi
    cases this
    cases he

/-- A decode asked for on the buffer an encode in progress writes; and a host store to its last byte. -/
theorem witness_OverlappingUseIsRefused :
    let s : State :=
      { twoInFlight none none with inFlight := [⟨0, ⟨0xA4#8, 0#64, vec counted, 0⟩, none⟩] }
    let x : Pending := ⟨0, ⟨0xA4#8, 0#64, vec counted, 0⟩, none⟩
    let q : Request := asking 0xA0#8 0 (some 1)
    1 < s.build.numUnits ∧ s.busy 1 = false ∧ decode s.build.narrowCodecs q.op = .ok .dec512 ∧
      s.driveWide .dec512 q.w = .ok 0#512 ∧ x ∈ s.inFlight ∧ decode s.build.narrowCodecs x.ports.op = .ok .enc512 ∧
      x.ports.buf = q.buf ∧ 0 < codecBytes .dec512 ∧ 0 < codecBytes .enc512 ∧
      codecBytes .dec512 ≤ (s.buffer q.buf).len ∧ codecBytes .enc512 ≤ (s.buffer q.buf).len ∧
      (isEncode .dec512 = true ∨ isEncode .enc512 = true) ∧ 63 < 64 :=
  ⟨by decide, rfl, by decide, rfl, List.mem_singleton.2 rfl, by decide, rfl, by decide, by decide, by decide +kernel,
    by decide +kernel, by decide, by decide⟩

theorem witness_ResetBetweenTransactionsChangesOnlyThePorts :
    (scripted [.reset]).script = .reset :: [] ∧ (scripted [.reset]).inFlight = [] ∧
      { twoInFlight none none with script := [.reset] }.script = .reset :: [] ∧ (twoInFlight none none).inFlight ≠ [] :=
  ⟨rfl, rfl, rfl, nofun⟩

theorem witness_HostMovesDoWhatTheHostMayDo :
    let s := { onBuffer true (fives 64) [] with inFlight := [⟨0, ⟨0x24#8, 0#64, 0#512, 0⟩, none⟩], values := held128 }
    (∀ x ∈ s.inFlight, s.uses x 0 = false) ∧ (s.buffer 0).writable = true ∧ 63 < (s.buffer 0).len ∧
      s.value? 7 = some (.s128 ⟨0x2A#64, 0#64⟩) ∧ ∀ x ∈ s.inFlight, s.uses x s.buffers.length = false :=
  ⟨by decide +kernel, by decide +kernel, by decide +kernel, rfl, by decide +kernel⟩

/-- The premises, and the two steps' outcome. -/
theorem witness_AHeldValueSurvivesTheWire :
    let a : Request := { op := 0xA4#8, s := 1#64, w := .held 5, buf := 0, dst := none }
    let b : Request := { op := 0xA0#8, s := 2#64, w := .held 9, buf := 0, dst := some 6 }
    let s : State :=
      { onBuffer true (fives 64) [] with
        values := [(5, .u512 beefU512)], script := .transact 0 a :: .transact 0 b :: [] }
    s.inFlight = [] ∧ 0 < s.build.numUnits ∧ (s.buffer 0).writable = true ∧ 64 ≤ (s.buffer 0).len ∧
      s.value? 5 = some (.u512 beefU512) ∧
      (match core.run 2 s with | .next t => t.value? 6 | _ => none) = some (.u512 beefU512) :=
  ⟨rfl, by decide, by decide +kernel, by decide +kernel, rfl, by decide +kernel⟩

end Sys2Proof.Tests
end

section
/-! The value records: their number, their halves, their lanes, and their place on a 512-bit port. -/

namespace Sys2Proof

/-- The number a concatenation stands for: the high part scaled by the width of the low part, plus the low part. -/
theorem toNat_append_eq_and_lt {m n N : Nat} (hN : m + n = N) (hi : BitVec m) (lo : BitVec n) :
    (hi ++ lo).toNat = hi.toNat * 2 ^ n + lo.toNat ∧ (hi ++ lo).toNat < 2 ^ N := by
  refine ⟨?_, hN ▸ (hi ++ lo).isLt⟩
  rw [BitVec.toNat_append, ← Nat.shiftLeft_add_eq_or_of_lt lo.isLt, Nat.shiftLeft_eq]

/-- Settles O10: a record's bits are its halves concatenated, so its number is theirs, below the size of the vector. -/
theorem unsignedRecordValues : Obligations.UnsignedRecordValues :=
  ⟨fun x => toNat_append_eq_and_lt rfl x.high x.low, fun x => toNat_append_eq_and_lt rfl x.high.bits x.low.bits,
    fun x => toNat_append_eq_and_lt (N := 512) rfl x.high.bits x.low.bits⟩

/-! Flattening and its inverse (R17): the signed records share the layout, so their laws are the unsigned ones. -/

/-- A vector is its two halves put together again. -/
theorem append_halves {n : Nat} (v : BitVec (n + n)) : v.extractLsb' n n ++ v.extractLsb' 0 n = v := by
  rw [BitVec.extractLsb'_append_extractLsb'_eq_extractLsb' (by omega), BitVec.extractLsb'_eq_self]

theorem U128.low_of_bits (x : U128) : x.bits.extractLsb' 0 64 = x.low := BitVec.extractLsb'_append_eq_right
theorem U128.high_of_bits (x : U128) : x.bits.extractLsb' 64 64 = x.high := BitVec.extractLsb'_append_eq_left
theorem U256.low_of_bits (x : U256) : x.bits.extractLsb' 0 128 = x.low.bits := BitVec.extractLsb'_append_eq_right
theorem U256.high_of_bits (x : U256) : x.bits.extractLsb' 128 128 = x.high.bits := BitVec.extractLsb'_append_eq_left
theorem U512.low_of_bits (x : U512) : x.bits.extractLsb' 0 256 = x.low.bits := BitVec.extractLsb'_append_eq_right
theorem U512.high_of_bits (x : U512) : x.bits.extractLsb' 256 256 = x.high.bits := BitVec.extractLsb'_append_eq_left

@[simp] theorem U128.ofBits_bits (x : U128) : U128.ofBits x.bits = x := by
  simp [U128.ofBits, U128.low_of_bits, U128.high_of_bits]

@[simp] theorem U256.ofBits_bits (x : U256) : U256.ofBits x.bits = x := by
  simp [U256.ofBits, U256.low_of_bits, U256.high_of_bits]

@[simp] theorem U512.ofBits_bits (x : U512) : U512.ofBits x.bits = x := by
  simp [U512.ofBits, U512.low_of_bits, U512.high_of_bits]

@[simp] theorem S128.ofBits_bits (x : S128) : S128.ofBits x.bits = x :=
  congrArg (fun y : U128 => S128.mk y.low y.high) (U128.ofBits_bits ⟨x.low, x.high⟩)

@[simp] theorem S256.ofBits_bits (x : S256) : S256.ofBits x.bits = x :=
  congrArg (fun y : U256 => S256.mk y.low y.high) (U256.ofBits_bits ⟨x.low, x.high⟩)

@[simp] theorem S512.ofBits_bits (x : S512) : S512.ofBits x.bits = x :=
  congrArg (fun y : U512 => S512.mk y.low y.high) (U512.ofBits_bits ⟨x.low, x.high⟩)

@[simp] theorem U128.bits_ofBits (v : BitVec 128) : (U128.ofBits v).bits = v := append_halves (n := 64) v

@[simp] theorem U256.bits_ofBits (v : BitVec 256) : (U256.ofBits v).bits = v := by
  simpa [U256.ofBits, U256.bits] using append_halves (n := 128) v

@[simp] theorem U512.bits_ofBits (v : BitVec 512) : (U512.ofBits v).bits = v := by
  simpa [U512.ofBits, U512.bits] using append_halves (n := 256) v

@[simp] theorem S128.bits_ofBits (v : BitVec 128) : (S128.ofBits v).bits = v := U128.bits_ofBits v
@[simp] theorem S256.bits_ofBits (v : BitVec 256) : (S256.ofBits v).bits = v := U256.bits_ofBits v
@[simp] theorem S512.bits_ofBits (v : BitVec 512) : (S512.ofBits v).bits = v := U512.bits_ofBits v

/-- Settles O11: the halves of a concatenation are its parts, and a vector is its halves put together. -/
theorem flatteningIsABijection : Obligations.FlatteningIsABijection :=
  ⟨fun x => ⟨x.low_of_bits, x.high_of_bits, x.ofBits_bits⟩,
    fun x => ⟨x.low_of_bits, x.high_of_bits, x.ofBits_bits⟩,
    fun x => ⟨x.low_of_bits, x.high_of_bits, x.ofBits_bits⟩,
    fun x => ⟨U128.low_of_bits ⟨x.low, x.high⟩, U128.high_of_bits ⟨x.low, x.high⟩, x.ofBits_bits⟩,
    fun x => ⟨U256.low_of_bits ⟨x.low, x.high⟩, U256.high_of_bits ⟨x.low, x.high⟩, x.ofBits_bits⟩,
    fun x => ⟨U512.low_of_bits ⟨x.low, x.high⟩, U512.high_of_bits ⟨x.low, x.high⟩, x.ofBits_bits⟩,
    fun v => ⟨U128.bits_ofBits v, S128.bits_ofBits v⟩,
    fun v => ⟨U256.bits_ofBits v, S256.bits_ofBits v⟩,
    fun v => ⟨U512.bits_ofBits v, S512.bits_ofBits v⟩⟩

/-! The lanes of a record, and where they lie in a buffer (R18, R33). -/

/-- The lanes of a concatenation of whole lanes: those of the low part first. -/
theorem lanes_append {m n : Nat} (hi : BitVec (64 * m)) (lo : BitVec (64 * n)) :
    lanes (hi ++ lo) = lanes lo ++ lanes hi := by
  have hcount : (64 * m + 64 * n) / 64 = n + m := by omega
  unfold lanes
  rw [hcount, List.range_add, List.map_append, List.map_map, Nat.mul_div_cancel_left n (by decide),
    Nat.mul_div_cancel_left m (by decide)]
  refine congrArg₂ (· ++ ·) (List.map_congr_left fun k hk => ?_) (List.map_congr_left fun k _ => ?_)
  · have hk := List.mem_range.1 hk
    exact BitVec.extractLsb'_append_eq_of_add_le (by omega)
  · refine (BitVec.extractLsb'_append_eq_of_le (Nat.mul_le_mul_left 64 (Nat.le_add_right n k))).trans ?_
    rw [← Nat.mul_sub, Nat.add_sub_cancel_left]
    rfl

/-- A lane is its own one lane. -/
theorem lanes_eq_singleton (v : Lane) : lanes v = [v] := by
  simp [lanes, lane, List.range_one, BitVec.extractLsb'_eq_self]

theorem U128.lanes_bits (x : U128) : lanes x.bits = [x.low, x.high] :=
  (lanes_append (m := 1) (n := 1) x.high x.low).trans (congrArg₂ (· ++ ·) (lanes_eq_singleton x.low) (lanes_eq_singleton x.high))

theorem U256.lanes_bits (x : U256) : lanes x.bits = lanes x.low.bits ++ lanes x.high.bits :=
  lanes_append (m := 2) (n := 2) x.high.bits x.low.bits

theorem U512.lanes_bits (x : U512) : lanes x.bits = lanes x.low.bits ++ lanes x.high.bits :=
  lanes_append (m := 4) (n := 4) x.high.bits x.low.bits

/-- Byte `i` of lane `k` is byte `8k + i` of the vector. -/
theorem extract_byte_lane {N : Nat} (X : BitVec N) (k : Nat) {i : Nat} (hi : i < 8) :
    (lane X k).extractLsb' (8 * i) 8 = X.extractLsb' (8 * (8 * k + i)) 8 := by
  apply BitVec.eq_of_getLsbD_eq
  intro j hj
  have hbit : 64 * k + (8 * i + j) = 8 * (8 * k + i) + j := by omega
  simp [lane, hj, hbit, show 8 * i + j < 64 by omega]

/-- Two vectors of `n` bytes that agree in every byte are equal. -/
theorem eq_of_extract_bytes {n : Nat} {v w : BitVec (8 * n)}
    (h : ∀ i, i < n → v.extractLsb' (8 * i) 8 = w.extractLsb' (8 * i) 8) : v = w := by
  apply BitVec.eq_of_getLsbD_eq
  intro j hj
  have hbit := congrArg (fun b => b.getLsbD (j % 8)) (h (j / 8) (by omega))
  simpa [BitVec.getLsbD_extractLsb', Nat.mod_lt, show 8 * (j / 8) + j % 8 = j by omega] using hbit

end Sys2Proof

namespace Sys2Proof.Machine

/-- A lane of a buffer that holds the bytes of a vector is the vector's lane. -/
theorem Buffer.memReadLane_eq_lane {b : Buffer} {N n : Nat} {X : BitVec N} (hlen : n ≤ b.len)
    (hbytes : ∀ i, i < n → X.extractLsb' (8 * i) 8 = b.byte i) {k : Nat} (hk : 8 * k + 8 ≤ n) :
    b.memReadLane (8 * k) = some (lane X k) := by
  rw [Buffer.memReadLane_eq (by omega)]
  refine congrArg some (eq_of_extract_bytes (n := 8) fun i hi => ?_)
  rw [Memory.extract_readBytes _ _ _ _ _ hi (by omega)]
  exact (hbytes _ (by omega)).symm.trans (extract_byte_lane X k hi).symm

theorem Buffer.len_of_readU128 {b : Buffer} {off : Nat} {x : U128} (h : b.readU128 off = some x) : off + 16 ≤ b.len := by
  have hlast := (Buffer.memReadLane_some ((Buffer.readU128_iff _ _ _).1 h).2).1
  omega

theorem Buffer.len_of_readU256 {b : Buffer} {off : Nat} {x : U256} (h : b.readU256 off = some x) : off + 32 ≤ b.len := by
  have hlast := Buffer.len_of_readU128 ((Buffer.readU256_iff _ _ _).1 h).2
  omega

theorem Buffer.len_of_readU512 {b : Buffer} {off : Nat} {x : U512} (h : b.readU512 off = some x) : off + 64 ≤ b.len := by
  have hlast := Buffer.len_of_readU256 ((Buffer.readU512_iff _ _ _).1 h).2
  omega

/-- A buffer's lanes after a write from offset 0 are those of the vector whose bytes were written. -/
theorem Buffer.Wrote.memReadLane {b b' : Buffer} {N n : Nat} {X : BitVec N}
    (h : b.Wrote b' 0 n fun i => X.extractLsb' (8 * i) 8) {k : Nat} (hk : 8 * k + 8 ≤ n) :
    b'.memReadLane (8 * k) = some (lane X k) := by
  have hlen : n ≤ b'.len := by have := h.exists_; have := h.len; omega
  exact Buffer.memReadLane_eq_lane hlen (fun i hi => by rw [h.byte, if_pos (by omega), Nat.sub_zero]) hk

end Sys2Proof.Machine

namespace Sys2Proof
open Machine

/-- Settles O12: the lanes by concatenation, the offsets by the bytes a decode reads and an encode writes. -/
theorem lanePathsAndOffsets : Obligations.LanePathsAndOffsets :=
  ⟨fun x => by simp [U512.lanes_bits, U256.lanes_bits, U128.lanes_bits],
    fun x => by simp [U256.lanes_bits, U128.lanes_bits],
    U128.lanes_bits,
    fun b x h k hk => Buffer.memReadLane_eq_lane (n := 64) (by have := Buffer.len_of_readU512 h; omega)
      (fun i hi => by simpa using Buffer.readU512_bytes h i hi) (by omega),
    fun b b' x h k hk => (Buffer.writeU512_wrote h).memReadLane (by omega)⟩

/-! The signed reading (R15). -/

/-- Two's complement by the top bit, and its range (G1). -/
theorem toInt_of_msb {N : Nat} (v : BitVec (N + 1)) {top : Bool} (htop : v.msb = top) :
    v.toInt = (if top then (v.toNat : Int) - 2 ^ (N + 1) else (v.toNat : Int)) ∧
      -2 ^ N ≤ v.toInt ∧ v.toInt ≤ 2 ^ N - 1 :=
  ⟨by rw [BitVec.toInt_eq_msb_cond, htop]; push_cast; rfl, BitVec.le_toInt v, Int.le_sub_one_of_lt BitVec.toInt_lt⟩

theorem U128.msb_bits (x : U128) : x.bits.msb = x.high.getLsbD 63 := BitVec.msb_append.trans x.high.msb_eq_getLsbD_last
theorem U256.msb_bits (x : U256) : x.bits.msb = x.high.high.getLsbD 63 := BitVec.msb_append.trans x.high.msb_bits
theorem U512.msb_bits (x : U512) : x.bits.msb = x.high.high.high.getLsbD 63 := BitVec.msb_append.trans x.high.msb_bits

/-- Settles O13: the unsigned record's bits, read in two's complement by its topmost lane's top bit. -/
theorem signedReadingOfARecord : Obligations.SignedReadingOfARecord :=
  ⟨fun x => ⟨rfl, toInt_of_msb (N := 127) x.bits (U128.msb_bits ⟨x.low, x.high⟩)⟩,
    fun x => ⟨rfl, toInt_of_msb (N := 255) x.bits (U256.msb_bits ⟨x.low, x.high⟩)⟩,
    fun x => ⟨rfl, toInt_of_msb (N := 511) x.bits (U512.msb_bits ⟨x.low, x.high⟩)⟩⟩

/-! Values and ports (R17, R20, R21). -/

theorem WideValue.type_ofPort (T : WideType) (v : BitVec 512) : (WideValue.ofPort T v).type = T := by
  obtain ⟨view, width⟩ := T
  cases view <;> cases width <;> rfl

theorem WideValue.port_ofPort (T : WideType) (v : BitVec 512) :
    (WideValue.ofPort T v).port = (v.setWidth (widthBits T.width)).setWidth 512 := by
  obtain ⟨view, width⟩ := T
  cases view <;> cases width <;> simp [WideValue.ofPort, WideValue.port, widthBits]

theorem WideValue.ofPort_port (x : WideValue) : WideValue.ofPort x.type x.port = x := by
  cases x <;> simp [WideValue.ofPort, WideValue.port, WideValue.type, BitVec.setWidth_setWidth_of_le]

/-- Settles O56, type by type. -/
theorem valuesAndPortsAgree : Obligations.ValuesAndPortsAgree :=
  ⟨fun T v => ⟨WideValue.type_ofPort T v, WideValue.port_ofPort T v⟩, WideValue.ofPort_port⟩

end Sys2Proof
end

section
/-! The canonical form of a buffer is unique (R22; log entry 7), and the frame of every operation (R10, R106). -/

namespace Sys2Proof.Machine

theorem Memory.wfFrom_cons {lo : Nat} {c : Host.Cell} {m : List Host.Cell} :
    Memory.wfFrom lo (c :: m) = true ↔ lo ≤ c.1 ∧ c.2 ≠ 0#8 ∧ Memory.wfFrom (c.1 + 1) m = true := by
  simp [Memory.wfFrom, and_assoc]

theorem Memory.read_of_forall_ne {m : List Host.Cell} {a : Nat} (h : ∀ c ∈ m, c.1 ≠ a) : Memory.read m a = 0#8 := by
  induction m with
  | nil => rfl
  | cons c m ih =>
    rw [Memory.read, if_neg (h c List.mem_cons_self)]
    exact ih fun d hd => h d (List.mem_cons_of_mem _ hd)

/-- Below the first offset the form allows, no byte is listed. -/
theorem Memory.read_of_lt {lo a : Nat} {m : List Host.Cell} (h : Memory.wfFrom lo m = true) (ha : a < lo) :
    Memory.read m a = 0#8 := by
  induction m generalizing lo with
  | nil => rfl
  | cons c m ih =>
    obtain ⟨hlo, -, hm⟩ := Memory.wfFrom_cons.1 h
    rw [Memory.read, if_neg (by omega)]
    exact ih hm (by omega)

/-- Where every byte reads 00, the canonical list is empty. -/
theorem Memory.eq_nil_of_read {lo : Nat} {m : List Host.Cell} (h : Memory.wfFrom lo m = true)
    (hz : ∀ a, Memory.read m a = 0#8) : m = [] := by
  cases m with
  | nil => rfl
  | cons c m => exact absurd (hz c.1) (by simpa [Memory.read] using (Memory.wfFrom_cons.1 h).2.1)

/-- The first listed offset is the least that reads other than 00, so no list that reads the same begins above it. -/
theorem Memory.head_le_of_read_eq {lo lo' : Nat} {c d : Host.Cell} {m m' : List Host.Cell}
    (h : Memory.wfFrom lo (c :: m) = true) (h' : Memory.wfFrom lo' (d :: m') = true)
    (hr : ∀ a, Memory.read (c :: m) a = Memory.read (d :: m') a) : d.1 ≤ c.1 := by
  by_contra hlt
  obtain ⟨-, hne, -⟩ := Memory.wfFrom_cons.1 h
  obtain ⟨-, hne', hm'⟩ := Memory.wfFrom_cons.1 h'
  have hd : Memory.wfFrom d.1 (d :: m') = true := Memory.wfFrom_cons.2 ⟨le_refl _, hne', hm'⟩
  have hc : Memory.read (c :: m) c.1 = c.2 := by simp [Memory.read]
  exact hne (hc.symm.trans ((hr c.1).trans (Memory.read_of_lt hd (by omega))))

/-- Two canonical lists that read the same at every offset are the same list. -/
theorem Memory.eq_of_read_eq {lo lo' : Nat} {m m' : List Host.Cell} (h : Memory.wfFrom lo m = true)
    (h' : Memory.wfFrom lo' m' = true) (hr : ∀ a, Memory.read m a = Memory.read m' a) : m = m' := by
  induction m generalizing lo lo' m' with
  | nil => exact (Memory.eq_nil_of_read h' fun a => (hr a).symm).symm
  | cons c m ih =>
    cases m' with
    | nil => exact Memory.eq_nil_of_read h hr
    | cons d m' =>
      have hoff : c.1 = d.1 :=
        Nat.le_antisymm (Memory.head_le_of_read_eq h' h fun a => (hr a).symm) (Memory.head_le_of_read_eq h h' hr)
      have hbyte : c.2 = d.2 := by simpa [Memory.read, hoff] using hr d.1
      obtain ⟨-, -, hm⟩ := Memory.wfFrom_cons.1 h
      obtain ⟨-, -, hm'⟩ := Memory.wfFrom_cons.1 h'
      have htail : ∀ a, Memory.read m a = Memory.read m' a := fun a => by
        by_cases ha : d.1 = a
        · rw [Memory.read_of_lt hm (by omega), Memory.read_of_lt hm' (by omega)]
        · simpa [Memory.read, hoff, ha] using hr a
      rw [Prod.ext hoff hbyte, ih hm hm' htail]

/-- A well-formed buffer reads 00 from its length on. -/
theorem Buffer.byte_of_len_le {b : Buffer} {a : Nat} (h : b.wf = true) (ha : b.len ≤ a) : b.byte a = 0#8 :=
  Memory.read_of_forall_ne fun c hc => by have := ((Buffer.wf_iff b).1 h).2 c hc; omega

/-- Settles O37: below the length by the premise, above it by the form, the cells read the same; so they are the same. -/
theorem canonicalBuffersAreUnique : Obligations.CanonicalBuffersAreUnique := by
  intro b c hb hc hlen hmark hbytes
  have hread : ∀ a, b.byte a = c.byte a := fun a => by
    by_cases ha : a < b.len
    · exact hbytes a ha
    · rw [Buffer.byte_of_len_le hb (by omega), Buffer.byte_of_len_le hc (by omega)]
  have hcells : b.cells = c.cells :=
    Memory.eq_of_read_eq ((Buffer.wf_iff b).1 hb).1 ((Buffer.wf_iff c).1 hc).1 hread
  cases b
  cases c
  simp_all

/-- What an operation that gives a next state changes: the response ports and the free values' counter; and, for an encode
on a long enough buffer, that buffer's first bytes. -/
theorem exec_next {i : Instr} {s t : State} (h : exec i s = .next t) :
    t = { s with resp := t.resp, freeCount := t.freeCount } ∨
      isEncode i = true ∧ codecBytes i ≤ s.reqBuffer.len ∧
        ∃ b img, s.reqBuffer.Wrote b 0 (codecBytes i) img ∧ t = (s.setBuffer s.req.buf b).respondDone := by
  rcases exec_cases i s with ⟨-, -, v, e⟩ | ⟨-, -, v, e⟩ | ⟨-, -, e⟩ | ⟨he, -, hl, b, img, hb, e⟩ | ⟨-, -, e⟩ <;>
    rw [e] at h <;> cases h
  · exact .inl rfl
  · exact .inl rfl
  · exact .inl rfl
  · exact .inr ⟨he, hl, b, img, hb, rfl⟩

theorem exec_frame {i : Instr} {s t : State} (h : exec i s = .next t) :
    t = { s with resp := t.resp, buffers := t.buffers, freeCount := t.freeCount } := by
  rcases exec_next h with e | ⟨-, -, b, img, -, rfl⟩
  · rw [e]
  · rfl

theorem exec_buffer_of_ne {i : Instr} {s t : State} (h : exec i s = .next t) {k : Nat} (hk : k ≠ s.req.buf) :
    t.buffer k = s.buffer k := by
  rcases exec_next h with e | ⟨-, -, b, img, -, e⟩
  · exact State.buffer_congr (show t.buffers = s.buffers by rw [e]) k
  · rw [State.buffer_congr (show t.buffers = (s.setBuffer s.req.buf b).buffers by rw [e]; rfl), State.buffer_setBuffer,
      if_neg fun hs => hk hs.1.symm]

/-- A byte an operation leaves alone: no encode's, of another buffer, of one too short, or beyond the operation's bytes. -/
theorem exec_byte_eq {i : Instr} {s t : State} (h : exec i s = .next t) {k a : Nat}
    (hout : isEncode i = false ∨ k ≠ s.req.buf ∨ s.reqBuffer.len < codecBytes i ∨ codecBytes i ≤ a) :
    (t.buffer k).byte a = (s.buffer k).byte a := by
  rcases exec_next h with e | ⟨he, hlen, b, img, hb, e⟩
  · rw [State.buffer_congr (show t.buffers = s.buffers by rw [e])]
  · by_cases hk : k = s.req.buf
    · have ha : codecBytes i ≤ a := by
        rcases hout with hi | hne | hshort | ha
        · exact absurd (he.symm.trans hi) nofun
        · exact absurd hk hne
        · omega
        · exact ha
      rw [State.buffer_congr (show t.buffers = (s.setBuffer s.req.buf b).buffers by rw [e]; rfl), State.buffer_setBuffer]
      split
      · rw [hb.byte, if_neg (by omega), hk]; rfl
      · rfl
    · rw [exec_buffer_of_ne h hk]

/-- Settles O41: the frame of the state, of the lengths and marks, of the other buffers, and of the bytes out of reach. -/
theorem onlyEncodesWriteBuffers : Obligations.OnlyEncodesWriteBuffers := by
  intro i s t h
  obtain ⟨-, -, hcount, hmarks, -⟩ := exec_keeps h
  exact ⟨exec_frame h, hcount, hmarks, fun k hk => exec_buffer_of_ne h hk, fun k a hout => exec_byte_eq h hout⟩

end Sys2Proof.Machine
end

section
/-! The step: the build it keeps (R26), the response an answer hands over (R171), and the values it leaves (R19). -/

namespace Sys2Proof.Machine

theorem answer_build {unit : Nat} {s t : State} (h : answer unit s = .next t) : t.build = s.build := by
  obtain ⟨p, i, u, -, -, hexec, rfl⟩ := answer_next h
  exact (exec_keeps hexec).1

theorem issue_build {unit : Nat} {q : Request} {s t : State} (h : issue unit q s = .next t) : t.build = s.build := by
  obtain ⟨-, -, i, w, -, -, -, rfl⟩ := issue_next h
  rfl

theorem perform_build {m : HostMove} {s t : State} (h : perform m s = .next t) : t.build = s.build := by
  cases m with
  | issue unit q => exact issue_build h
  | answer unit => exact answer_build h
  | transact unit q =>
    obtain ⟨u, hissue, hanswer⟩ := transact_next h
    exact (answer_build hanswer).trans (issue_build hissue)
  | store buf off v => obtain ⟨-, -, b, -, rfl⟩ := hostStore_next h; rfl
  | copy dst src => obtain ⟨v, -, rfl⟩ := hostCopy_next h; rfl
  | addBuffer w bytes => obtain ⟨-, rfl⟩ := hostAddBuffer_next h; rfl
  | reset => obtain ⟨-, ports, rfl⟩ := hostReset_next h; rfl

/-- Settles O46: no move and no answer touches the build. -/
theorem theBuildNeverChanges : Obligations.TheBuildNeverChanges := by
  intro s t h
  rcases step_cases s with ⟨-, -, e⟩ | ⟨-, p, ps, -, e⟩ | ⟨m, rest, -, e⟩ <;> rw [e] at h
  · cases h; rfl
  · exact answer_build h
  · exact perform_build (s := { s with script := rest }) h

/-! The response of an answer. -/

/-- The result column of R55's table is the model's own reading of it. -/
theorem resultType_eq_resultColumn (i : Instr) :
    resultType i = (resultColumn.find? fun row => row.2.contains i).map Prod.fst := by
  cases i <;> rfl

theorem State.responseValue_eq_typedValue (s : State) (i : Instr) : s.responseValue i = typedValue i s.resp := by
  unfold State.responseValue typedValue
  rw [resultType_eq_resultColumn, Option.map_map]
  cases s.resp.status <;> rfl

/-- An operation leaves the host its responses and its values; the host taking the response hands it over. -/
theorem handsOver_collect {s t u : State} {i : Instr} {p : Pending} (h : exec i s = .next u) (ht : t = u.collect i p) :
    HandsOver s t i p.unit p.dst := by
  have hu := exec_frame h
  have hresponses : u.responses = s.responses := by rw [hu]
  have hvalues : u.values = s.values := by rw [hu]
  subst ht
  refine ⟨?_, fun n => ?_⟩
  · rw [State.collect_responses, hresponses, State.collect_resp, State.responseValue_eq_typedValue]
  · rw [State.value?_collect, State.responseValue_eq_typedValue, State.collect_resp, State.value?_congr hvalues]

/-- Everything an answer leaves the host: the response of the unit's outstanding request, handed over. -/
theorem answer_handsOver {unit : Nat} {s t : State} (h : answer unit s = .next t) :
    ∃ p i, s.inFlight.find? (fun x => x.unit == unit) = some p ∧ decode s.build.narrowCodecs p.ports.op = .ok i ∧
      HandsOver s t i unit p.dst := by
  obtain ⟨p, i, u, hp, hi, hexec, ht⟩ := answer_next h
  have hunit : p.unit = unit := by simpa using List.find?_some hp
  exact ⟨p, i, hp, hi, hunit ▸ handsOver_collect (s := s.present p) hexec ht⟩

/-- The request an idle unit accepted last is the one it has outstanding. -/
theorem find_append_of_idle {s : State} {p : Pending} (h : s.busy p.unit = false) :
    (s.inFlight ++ [p]).find? (fun x => x.unit == p.unit) = some p := by
  have hnone : s.inFlight.find? (fun x => x.unit == p.unit) = none := by
    simpa [State.busy, List.find?_eq_none] using h
  simp [List.find?_append, hnone]

/-- A transaction hands over the response of its own request. -/
theorem transact_handsOver {unit : Nat} {q : Request} {s t : State} (h : perform (.transact unit q) s = .next t) :
    ∃ i, decode s.build.narrowCodecs q.op = .ok i ∧ HandsOver s t i unit q.dst := by
  obtain ⟨u, hissue, hanswer⟩ := transact_next h
  obtain ⟨-, hidle, j, w, -, -, -, rfl⟩ := issue_next hissue
  obtain ⟨p, i, hp, hi, hover⟩ := answer_handsOver hanswer
  cases hp.symm.trans (find_append_of_idle (p := ⟨unit, ⟨q.op, q.s, w, q.buf⟩, q.dst⟩) hidle)
  exact ⟨i, hi, hover⟩

/-- With no move left the oldest request's response is handed over. -/
theorem drain_handsOver {s t : State} {p : Pending} {ps : List Pending} (hs : s.script = [])
    (hf : s.inFlight = p :: ps) (h : step s = .next t) :
    ∃ i, decode s.build.narrowCodecs p.ports.op = .ok i ∧ HandsOver s t i p.unit p.dst := by
  rw [step_drain hs hf] at h
  obtain ⟨x, i, hx, hi, hover⟩ := answer_handsOver h
  rw [hf, List.find?_cons_of_pos (by simp)] at hx
  cases hx
  exact ⟨i, hi, hover⟩

/-- Settles O48: an answer, asked, in a transaction or unasked, hands over; the other moves leave the responses alone. -/
theorem eachTransactionGivesOneResponse : Obligations.EachTransactionGivesOneResponse := by
  refine ⟨fun s t m rest hs h => ?_, fun s t p ps => drain_handsOver⟩
  rw [step_cons hs] at h
  cases m with
  | issue unit q => obtain ⟨-, -, i, w, -, -, -, rfl⟩ := issue_next h; rfl
  | answer unit => exact answer_handsOver (s := { s with script := rest }) h
  | transact unit q => exact transact_handsOver (s := { s with script := rest }) h
  | store buf off v => obtain ⟨-, -, b, -, rfl⟩ := hostStore_next h; rfl
  | copy dst src => obtain ⟨v, -, rfl⟩ := hostCopy_next h; rfl
  | addBuffer w bytes => obtain ⟨-, rfl⟩ := hostAddBuffer_next h; rfl
  | reset => obtain ⟨-, ports, rfl⟩ := hostReset_next h; rfl

/-! The values a step leaves. -/

/-- A response handed over changes no value but the one under its name. -/
theorem value?_of_handsOver {s t : State} {i : Instr} {unit n : Nat} {dst : Option Nat}
    (h : HandsOver s t i unit dst) (hn : dst ≠ some n) : t.value? n = s.value? n :=
  (h.2 n).trans (if_neg hn)

theorem hostCopy_value? {dst src n : Nat} {s t : State} (h : hostCopy dst src s = .next t) (hn : dst ≠ n) :
    t.value? n = s.value? n := by
  obtain ⟨v, -, rfl⟩ := hostCopy_next h
  simp [State.value?, find_putValue, hn]

theorem perform_value? {m : HostMove} {s t : State} {n : Nat} (h : perform m s = .next t)
    (hn : s.boundBy m ≠ some n) : t.value? n = s.value? n := by
  cases m with
  | issue unit q => obtain ⟨-, -, i, w, -, -, -, rfl⟩ := issue_next h; rfl
  | answer unit =>
    obtain ⟨p, i, hp, -, hover⟩ := answer_handsOver h
    exact value?_of_handsOver hover (by simpa [State.boundBy, hp] using hn)
  | transact unit q =>
    obtain ⟨i, -, hover⟩ := transact_handsOver h
    exact value?_of_handsOver hover hn
  | store buf off v => obtain ⟨-, -, b, -, rfl⟩ := hostStore_next h; rfl
  | copy dst src => exact hostCopy_value? h fun e => hn (congrArg some e)
  | addBuffer w bytes => obtain ⟨-, rfl⟩ := hostAddBuffer_next h; rfl
  | reset => obtain ⟨-, ports, rfl⟩ := hostReset_next h; rfl

/-- Settles O47: a move by `perform_value?`; with no move left, nothing or the oldest request's response. -/
theorem heldValuesAreNeverChanged : Obligations.HeldValuesAreNeverChanged := by
  refine ⟨fun s t m rest n hs h hn => ?_, fun s t n hs h hn => ?_⟩
  · rw [step_cons hs] at h
    exact perform_value? (s := { s with script := rest }) h hn
  · cases hf : s.inFlight with
    | nil =>
      rw [step_idle hs hf] at h
      cases h
      rfl
    | cons p ps =>
      obtain ⟨i, -, hover⟩ := drain_handsOver hs hf h
      exact value?_of_handsOver hover (hn p (by simp [hf]))

/-- Settles O53: both answers are `answer` of the request outstanding, which is `exec` on its ports. -/
theorem anAnswerRunsTheOutstandingRequest : Obligations.AnAnswerRunsTheOutstandingRequest := by
  refine ⟨fun s unit rest p i hs hp hi => ?_, fun s p ps i hs hf hi => ?_⟩
  · obtain rfl : p.unit = unit := by simpa using List.find?_some hp
    rw [step_cons hs]
    exact answer_eq (s := { s with script := rest }) hp hi
  · have hp : s.inFlight.find? (fun x => x.unit == p.unit) = some p := by
      rw [hf, List.find?_cons_of_pos (by simp)]
    rw [step_drain hs hf]
    exact answer_eq hp hi

end Sys2Proof.Machine
end

section
/-! Buffers (20_memory.md): the length test (R35, R144), the read-only encode (R40), the 512-bit image (R34, R36), the codecs
done twice (R39), and overlapping use (R39, R42). -/

namespace Sys2Proof.Machine

/-- Settles O27: of the cases of an operation, only the error is short, and only the read-only encode is not OK. -/
theorem shortBufferEndsTheOperation : Obligations.ShortBufferEndsTheOperation := by
  intro i s hmark
  rcases exec_cases i s with ⟨-, hlen, v, e⟩ | ⟨-, hnone, v, e⟩ | ⟨hshort, -, e⟩ | ⟨-, -, hlen, b, img, -, e⟩ |
    ⟨he, hw, -⟩
  · exact ⟨fun hshort => by omega, fun _ => ⟨_, e, rfl⟩⟩
  · exact ⟨fun hshort => by omega, fun _ => ⟨_, e, rfl⟩⟩
  · exact ⟨fun _ => e, fun hlen => by omega⟩
  · exact ⟨fun hshort => by omega, fun _ => ⟨_, e, rfl⟩⟩
  · exact absurd (hmark he) (by simp [hw])

/-- Settles O36: the other cases of an operation are no encode's, or need a buffer the host may write. -/
theorem readOnlyEncodeIsRefused : Obligations.ReadOnlyEncodeIsRefused := by
  intro i s he hw
  have hmark : s.reqBuffer.writable ≠ true := by simp [hw]
  rcases exec_cases i s with ⟨hdec, -⟩ | ⟨hdec, -⟩ | ⟨-, hok, -⟩ | ⟨-, hok, -⟩ | ⟨-, -, e⟩
  · exact absurd he (by simp [hdec])
  · exact absurd he (by simp [hdec])
  · exact absurd (hok he) hmark
  · exact absurd hok hmark
  · exact e

/-! The 512-bit codec. -/

/-- `DEC512` on a long enough buffer returns the record read at offset 0. -/
theorem exec_dec512_of_len {s : State} (h : 64 ≤ s.reqBuffer.len) :
    ∃ x, s.reqBuffer.readU512 0 = some x ∧
      exec .dec512 s = .next { s with resp := { status := .ok, r := x.bits } } := by
  obtain ⟨x, hx⟩ := Buffer.readU512_isSome (b := s.reqBuffer) (off := 0) (by omega)
  have hread : (s.reqBuffer.readU512 0).map U512.bits = some x.bits := by rw [hx]; rfl
  change ∃ x, _ ∧ decodeOp 64 (fun b => (b.readU512 0).map U512.bits) s = _
  rcases decodeOp_cases (need := 64) (read := fun b => (b.readU512 0).map U512.bits) s fun _ => ⟨x.bits, hread⟩ with
    ⟨hshort, -⟩ | ⟨v, -, hv, e⟩
  · omega
  · cases hread.symm.trans hv
    exact ⟨x, hx, by simpa [State.respond] using e⟩

/-- What an `ENC512` that gives a next state did: the error on a short buffer, else the wide port's 64 bytes written. -/
theorem exec_enc512_next {s t : State} (h : exec .enc512 s = .next t) :
    (s.reqBuffer.len < 64 ∧ t = s.raiseBufTooShort) ∨
      ∃ b, s.reqBuffer.Wrote b 0 64 (fun i => s.req.w.extractLsb' (8 * i) 8) ∧
        t = (s.setBuffer s.req.buf b).respondDone := by
  change encodeOp 64 (fun b => b.writeU512 0 (U512.ofBits s.wide512)) s = .next t at h
  rcases encodeOp_cases (need := 64) (write := fun b => b.writeU512 0 (U512.ofBits s.wide512)) s
      (fun hlen => Buffer.writeU512_isSome _ (by omega)) with ⟨-, e⟩ | ⟨-, hshort, e⟩ | ⟨b, -, -, hb, e⟩ <;>
    rw [e] at h <;> cases h
  · exact .inl ⟨hshort, rfl⟩
  · exact .inr ⟨b, by simpa [State.wide512] using Buffer.writeU512_wrote hb, rfl⟩

/-- Two records read from buffers that agree on their 64 bytes have the same bits. -/
theorem Buffer.readU512_bits_congr {b c : Buffer} {x y : U512} (hx : b.readU512 0 = some x) (hy : c.readU512 0 = some y)
    (h : ∀ a, a < 64 → b.byte a = c.byte a) : x.bits = y.bits :=
  eq_of_extract_bytes (n := 64) fun i hi =>
    (Buffer.readU512_bytes hx i hi).trans ((h _ (by omega)).trans (Buffer.readU512_bytes hy i hi).symm)

/-- Settles O32: a decode's record has the bits of bytes 0 to 63; an encode leaves what is out of its reach. -/
theorem bytesFrom64OnPlayNoPart : Obligations.BytesFrom64OnPlayNoPart := by
  refine ⟨fun s t hs ht hbytes => ?_, fun s hw hlen => ?_⟩
  · obtain ⟨x, hx, ex⟩ := exec_dec512_of_len hs
    obtain ⟨y, hy, ey⟩ := exec_dec512_of_len ht
    have hbits : x.bits = y.bits := Buffer.readU512_bits_congr hx hy hbytes
    exact ⟨x.bits, ex, by rw [hbits]; exact ey⟩
  · obtain ⟨t, e, hok⟩ := (shortBufferEndsTheOperation .enc512 s fun _ => hw).2 hlen
    obtain ⟨-, -, -, hmarks, -⟩ := exec_keeps e
    exact ⟨t, e, hok, (hmarks s.req.buf).1, fun a ha => exec_byte_eq e (.inr (.inr (.inr ha)))⟩

/-! One little-endian integer (R34). -/

/-- The low `n` bytes of a number, summed by their weights, are the number modulo `2 ^ (8 * n)`. -/
theorem sum_bytes_eq_mod {W : Nat} (v : BitVec W) (n : Nat) :
    ((List.range n).map fun i => (v.extractLsb' (8 * i) 8).toNat * 2 ^ (8 * i)).sum = v.toNat % 2 ^ (8 * n) := by
  induction n with
  | zero => simp [Nat.mod_one]
  | succ n ih =>
    have hbyte : (v.extractLsb' (8 * n) 8).toNat = v.toNat / 2 ^ (8 * n) % 2 ^ 8 := by
      rw [BitVec.extractLsb'_toNat, Nat.shiftRight_eq_div_pow]
    rw [List.range_succ, List.map_append, List.sum_append, ih, List.map_singleton, List.sum_singleton, hbyte,
      Nat.mul_succ, Nat.pow_add, Nat.mod_mul, Nat.mul_comm (2 ^ (8 * n))]

/-- A vector whose bytes stand at the first `n` offsets of a buffer is the bytes' one little-endian integer. -/
theorem toNat_eq_sum_bytes {b : Buffer} {n : Nat} {v : BitVec (8 * n)}
    (h : ∀ i, i < n → v.extractLsb' (8 * i) 8 = b.byte i) :
    v.toNat = ((List.range n).map fun i => (b.byte i).toNat * 2 ^ (8 * i)).sum := by
  calc v.toNat = v.toNat % 2 ^ (8 * n) := (Nat.mod_eq_of_lt v.isLt).symm
    _ = ((List.range n).map fun i => (v.extractLsb' (8 * i) 8).toNat * 2 ^ (8 * i)).sum := (sum_bytes_eq_mod v n).symm
    _ = ((List.range n).map fun i => (b.byte i).toNat * 2 ^ (8 * i)).sum :=
      congrArg List.sum (List.map_congr_left fun i hi => by rw [h i (List.mem_range.1 hi)])

/-- Settles O33: both images are the value's bytes in order, and the narrower views are the record's parts. -/
theorem imageIsOneLittleEndianInteger : Obligations.ImageIsOneLittleEndianInteger := by
  refine ⟨fun b x h => ?_, fun b b' x h => ?_⟩
  · obtain ⟨hlow, hhigh⟩ := (Buffer.readU512_iff _ _ _).1 h
    exact ⟨toNat_eq_sum_bytes (n := 64) fun i hi => by simpa using Buffer.readU512_bytes h i hi,
      ((Buffer.readU256_iff _ _ _).1 hlow).1, hhigh⟩
  · have hbytes : ∀ i, i < 64 → b'.byte i = x.bits.extractLsb' (8 * i) 8 := fun i hi => by
      rw [(Buffer.writeU512_wrote h).byte, if_pos (by omega), Nat.sub_zero]
    exact ⟨hbytes, toNat_eq_sum_bytes (n := 64) fun i hi => (hbytes i hi).symm⟩

/-! A codec done twice (R39). -/

/-- The same bytes written a second time leave a canonical buffer as the first write left it. -/
theorem Buffer.Wrote.twice_eq {b c d : Buffer} {off n : Nat} {img : Nat → Byte} (hwf : b.wf = true)
    (h : b.Wrote c off n img) (h' : c.Wrote d off n img) : d = c :=
  canonicalBuffersAreUnique d c (h'.wf (h.wf hwf)) (h.wf hwf) h'.len h'.writable fun a _ => by
    rw [h'.byte]
    split
    · next hin => rw [h.byte, if_pos hin]
    · rfl

/-- After an encode of at least one byte, its buffer is the one written. -/
theorem reqBuffer_of_wrote {s : State} {b : Buffer} {n : Nat} {img : Nat → Byte} (hn : 0 < n)
    (h : s.reqBuffer.Wrote b 0 n img) : (s.setBuffer s.req.buf b).respondDone.reqBuffer = b := by
  have hlen : 0 < (s.buffer s.req.buf).len := by have := h.exists_; unfold State.reqBuffer at this; omega
  exact (State.buffer_setBuffer s s.req.buf s.req.buf b).trans (if_pos ⟨rfl, State.lt_length_of_buffer hlen⟩)

theorem enc512_twice {s a b : State} (hwf : s.reqBuffer.wf = true) (ha : exec .enc512 s = .next a)
    (hb : exec .enc512 a = .next b) : b.buffers = a.buffers := by
  rcases exec_enc512_next hb with ⟨-, rfl⟩ | ⟨d, hd, rfl⟩
  · rfl
  · rcases exec_enc512_next ha with ⟨hshort, rfl⟩ | ⟨c, hc, rfl⟩
    · have hlen : 0 + 64 ≤ s.reqBuffer.len := hd.exists_
      omega
    · rw [reqBuffer_of_wrote (by decide) hc] at hd
      obtain rfl : d = c := hc.twice_eq hwf hd
      exact List.set_set ..

theorem dec512_twice {s a b : State} (ha : exec .dec512 s = .next a) (hb : exec .dec512 a = .next b) :
    a.buffers = s.buffers ∧ (a.resp.status = .ok → b.resp = a.resp) := by
  by_cases hlen : 64 ≤ s.reqBuffer.len
  · obtain ⟨x, hx, e⟩ := exec_dec512_of_len hlen
    cases ha.symm.trans e
    obtain ⟨y, hy, e'⟩ := exec_dec512_of_len (s := { s with resp := { status := .ok, r := x.bits } }) hlen
    cases hb.symm.trans e'
    cases hx.symm.trans hy
    exact ⟨rfl, fun _ => rfl⟩
  · have e := (shortBufferEndsTheOperation .dec512 s nofun).1 (Nat.not_le.1 hlen)
    cases ha.symm.trans e
    exact ⟨rfl, nofun⟩

/-- Settles O35: the second write's buffer by the uniqueness of the canonical form, the second decode by the first. -/
theorem encodeIsIdempotentDecodeReadsOnly : Obligations.EncodeIsIdempotentDecodeReadsOnly :=
  ⟨fun _ _ _ => enc512_twice, fun _ _ _ => dec512_twice⟩

/-! Overlapping use (R39, R42, D13). -/

theorem State.pendingInstr_eq {s : State} {p : Pending} {i : Instr}
    (h : decode s.build.narrowCodecs p.ports.op = .ok i) : s.pendingInstr p = some i := by
  simp [State.pendingInstr, h]

theorem State.pendingWrites_eq {s : State} {p : Pending} {i : Instr}
    (h : decode s.build.narrowCodecs p.ports.op = .ok i) : s.pendingWrites p = isEncode i := by
  simp [State.pendingWrites, State.pendingInstr_eq h]

theorem State.extent_eq_codecBytes {s : State} {p : Pending} {i : Instr}
    (h : decode s.build.narrowCodecs p.ports.op = .ok i) (hlen : codecBytes i ≤ (s.buffer p.ports.buf).len) :
    s.extent p = codecBytes i := by
  simp [State.extent, State.pendingInstr_eq h, tooShort, Nat.not_lt.2 hlen]

theorem State.uses_of_codec {s : State} {p : Pending} {i : Instr}
    (h : decode s.build.narrowCodecs p.ports.op = .ok i) (hpos : 0 < codecBytes i) : s.uses p p.ports.buf = true := by
  simp [State.uses, State.pendingInstr_eq h, hpos]

/-- Two codecs on one long enough buffer, an encode among them, conflict. -/
theorem State.conflict_of_overlap {s : State} {p q : Pending} {i j : Instr} (hbuf : p.ports.buf = q.ports.buf)
    (hp : decode s.build.narrowCodecs p.ports.op = .ok j) (hq : decode s.build.narrowCodecs q.ports.op = .ok i)
    (hpos : 0 < codecBytes i) (hpos' : 0 < codecBytes j) (hlen : codecBytes i ≤ (s.buffer q.ports.buf).len)
    (hlen' : codecBytes j ≤ (s.buffer q.ports.buf).len) (henc : isEncode i = true ∨ isEncode j = true) :
    s.conflict p q = true := by
  have hextent : s.extent p = codecBytes j := State.extent_eq_codecBytes hp (hbuf ▸ hlen')
  simp [State.conflict, hbuf, hextent, State.extent_eq_codecBytes hq hlen, State.pendingWrites_eq hp,
    State.pendingWrites_eq hq, hpos, hpos', henc.symm]

/-- A request that conflicts with a transaction in progress is refused as a race. -/
theorem issue_eq_race {unit : Nat} {q : Request} {s : State} {i : Instr} {w : BitVec 512} {x : Pending}
    (hu : unit < s.build.numUnits) (hb : s.busy unit = false) (hi : decode s.build.narrowCodecs q.op = .ok i)
    (hw : s.driveWide i q.w = .ok w) (hx : x ∈ s.inFlight)
    (hc : s.conflict x ⟨unit, ⟨q.op, q.s, w, q.buf⟩, q.dst⟩ = true) : issue unit q s = .refused (.race q.buf) := by
  have hany : (s.inFlight.any fun x => s.conflict x ⟨unit, ⟨q.op, q.s, w, q.buf⟩, q.dst⟩) = true :=
    List.any_eq_true.2 ⟨x, hx, hc⟩
  simp [issue, hu, hb, hi, hw, hany]

/-- A host store to bytes 0 to 63 of a buffer in use is refused as a race. -/
theorem hostStore_eq_race {s : State} {buf off : Nat} (v : Byte) {x : Pending} (hx : x ∈ s.inFlight)
    (huse : s.uses x buf = true) (hoff : off < 64) : hostStore buf off v s = .refused (.race buf) := by
  have hany : (s.inFlight.any fun p => s.uses p buf) = true := List.any_eq_true.2 ⟨x, hx, huse⟩
  simp [hostStore, hoff, hany]

/-- Settles O49: the premises are a conflict of the two codecs, and a use of the buffer. -/
theorem overlappingUseIsRefused : Obligations.OverlappingUseIsRefused :=
  ⟨fun _ _ _ _ _ _ _ hu hb hi hw hx hj hbuf hpos hpos' hlen hlen' henc =>
      issue_eq_race hu hb hi hw hx (State.conflict_of_overlap hbuf hj hi hpos hpos' hlen hlen' henc),
    fun _ _ v _ _ hx hj hpos hoff => hostStore_eq_race v hx (State.uses_of_codec hj hpos) hoff⟩

end Sys2Proof.Machine
end

section
/-! The encoding (30_encoding.md): the fields of a word and their codes (R51), the words the decoder reads (R52 to R54), its
agreement with the encoder, and the opcode map (R56). -/

namespace Sys2Proof

/-! The code each field carries for what it selects (R51). -/

def Width.code : Width → BitVec 2
  | .n128 => 0b00#2
  | .n256 => 0b01#2
  | .n512 => 0b10#2

def View.code : View → BitVec 2
  | .u => 0b00#2
  | .s => 0b01#2
  | .d => 0b10#2

def ScalarKind.code : ScalarKind → BitVec 2
  | .int => 0b00#2
  | .uint => 0b01#2

def Direction.code : Direction → BitVec 2
  | .dec => 0b00#2
  | .enc => 0b01#2

theorem decodeWidth_eq_some {f : BitVec 2} {n : Width} : decodeWidth f = some n ↔ f = n.code := by
  revert f; cases n <;> decide

theorem decodeView_eq_some {f : BitVec 2} {v : View} : decodeView f = some v ↔ f = v.code := by
  revert f; cases v <;> decide

theorem decodeScalarKind_eq_some {f : BitVec 2} {k : ScalarKind} : decodeScalarKind f = some k ↔ f = k.code := by
  revert f; cases k <;> decide

theorem decodeDirection_eq_some {f : BitVec 2} {d : Direction} : decodeDirection f = some d ↔ f = d.code := by
  revert f; cases d <;> decide

/-- The fields are the whole word (R50, R51). -/
theorem opWord_fields (op : BitVec 8) : opWord (opCls op) (opWsel op) (opA op) (opB op) = op := by
  unfold opWord opCls opWsel opA opB
  rw [BitVec.extractLsb'_append_extractLsb'_eq_extractLsb' (show 6 = 4 + 2 from rfl),
    BitVec.extractLsb'_append_extractLsb'_eq_extractLsb' (show 4 = 2 + 2 from rfl),
    BitVec.extractLsb'_append_extractLsb'_eq_extractLsb' (show 2 = 0 + 2 from rfl), BitVec.extractLsb'_eq_self]

/-! What the decoder read where it read an operation: the class, the width, and the two selectors as codes. -/

theorem decodeConv_ok {n : Width} {op : BitVec 8} {i : Instr} (h : decodeConv n op = .ok i) :
    ∃ dt sk, opA op = dt.code ∧ opB op = sk.code ∧ convInstr n dt sk = .ok i := by
  unfold decodeConv at h
  split at h
  · cases h
  · cases h
  · next dt sk ha hb => exact ⟨dt, sk, decodeView_eq_some.1 ha, decodeScalarKind_eq_some.1 hb, h⟩

theorem decodeCast_ok {n : Width} {op : BitVec 8} {i : Instr} (h : decodeCast n op = .ok i) :
    ∃ dt st, opA op = dt.code ∧ opB op = st.code ∧ castInstr n dt st = .ok i := by
  unfold decodeCast at h
  split at h
  · cases h
  · cases h
  · next dt st ha hb => exact ⟨dt, st, decodeView_eq_some.1 ha, decodeView_eq_some.1 hb, h⟩

theorem decodeCodec_ok {narrow : Bool} {n : Width} {op : BitVec 8} {i : Instr} (h : decodeCodec narrow n op = .ok i) :
    ∃ dir, opA op = dir.code ∧ opB op = 0b00#2 ∧ codecInstr narrow n dir = .ok i := by
  unfold decodeCodec at h
  split at h
  · cases h
  · next dir ha =>
    split at h
    · next hb => exact ⟨dir, decodeDirection_eq_some.1 ha, hb, h⟩
    · cases h

theorem decode_ok {narrow : Bool} {op : BitVec 8} {i : Instr} (h : decode narrow op = .ok i) :
    ∃ n : Width, opWsel op = n.code ∧
      (opCls op = 0b00#2 ∧ decodeConv n op = .ok i ∨ opCls op = 0b01#2 ∧ decodeCast n op = .ok i ∨
        opCls op = 0b10#2 ∧ decodeCodec narrow n op = .ok i) := by
  unfold decode at h
  split at h
  · cases h
  · cases h
  · next n hw hc => exact ⟨n, decodeWidth_eq_some.1 hw, .inl ⟨hc, h⟩⟩
  · next n hw hc => exact ⟨n, decodeWidth_eq_some.1 hw, .inr (.inl ⟨hc, h⟩)⟩
  · next n hw h3 h0 h1 =>
    have codec : ∀ c : BitVec 2, c ≠ 0b11#2 → c ≠ 0b00#2 → c ≠ 0b01#2 → c = 0b10#2 := by decide
    exact ⟨n, decodeWidth_eq_some.1 hw, .inr (.inr ⟨codec _ h3 h0 h1, h⟩)⟩

/-! The encoder writes the codes of what the operation selects (R52 to R54). -/

theorem encode_of_convInstr {n : Width} {dt : View} {sk : ScalarKind} {i : Instr} (h : convInstr n dt sk = .ok i) :
    encode i = opWord 0b00#2 n.code dt.code sk.code := by
  cases n <;> cases dt <;> cases sk <;> cases h <;> rfl

theorem encode_of_castInstr {n : Width} {dt st : View} {i : Instr} (h : castInstr n dt st = .ok i) :
    encode i = opWord 0b01#2 n.code dt.code st.code := by
  cases n <;> cases dt <;> cases st <;> cases h <;> rfl

theorem encode_of_codecInstr {narrow : Bool} {n : Width} {dir : Direction} {i : Instr}
    (h : codecInstr narrow n dir = .ok i) : encode i = opWord 0b10#2 n.code dir.code 0b00#2 := by
  cases narrow <;> cases n <;> cases dir <;> cases h <;> rfl

/-- A word that decodes is the encoding of what it decodes to: the encoder writes back the fields the decoder read. -/
theorem encode_of_decode {narrow : Bool} {op : BitVec 8} {i : Instr} (h : decode narrow op = .ok i) : encode i = op := by
  obtain ⟨n, hw, ⟨hc, hi⟩ | ⟨hc, hi⟩ | ⟨hc, hi⟩⟩ := decode_ok h
  · obtain ⟨dt, sk, ha, hb, hi⟩ := decodeConv_ok hi
    rw [encode_of_convInstr hi, ← hc, ← hw, ← ha, ← hb, opWord_fields]
  · obtain ⟨dt, st, ha, hb, hi⟩ := decodeCast_ok hi
    rw [encode_of_castInstr hi, ← hc, ← hw, ← ha, ← hb, opWord_fields]
  · obtain ⟨dir, ha, hb, hi⟩ := decodeCodec_ok hi
    rw [encode_of_codecInstr hi, ← hc, ← hw, ← ha, ← hb, opWord_fields]

/-! The option (R54): a build without it reserves the words of the narrow codecs and reads every other word alike. -/

theorem codecInstr_base (n : Width) (dir : Direction) :
    codecInstr false n dir = codecInstr true n dir ∨ codecInstr false n dir = .error .narrowCodecAbsent := by
  cases n <;> cases dir <;> simp [codecInstr]

theorem decodeCodec_base (n : Width) (op : BitVec 8) :
    decodeCodec false n op = decodeCodec true n op ∨ decodeCodec false n op = .error .narrowCodecAbsent := by
  unfold decodeCodec
  split
  · exact .inl rfl
  · split
    · exact codecInstr_base _ _
    · exact .inl rfl

theorem decode_base (op : BitVec 8) :
    decode false op = decode true op ∨ decode false op = .error .narrowCodecAbsent := by
  unfold decode
  split
  case h_5 => exact decodeCodec_base _ _
  all_goals exact .inl rfl

/-- The family `Encoding` holds of every operation. -/
theorem encodingStatement (i : Instr) : Laws.Encoding.Statement i := by
  open Laws.Encoding in
  exact i.casesOn u128FromInt u128FromUint s128FromInt d128FromInt u256FromInt u256FromUint s256FromInt d256FromInt
    u512FromInt u512FromUint s512FromInt d512FromInt cast128US cast128UD cast128SU cast128SD cast128DU cast128DS
    cast256US cast256UD cast256SU cast256SD cast256DU cast256DS cast512US cast512UD cast512SU cast512SD cast512DU
    cast512DS dec512 enc512 dec128 enc128 dec256 enc256

theorem decode_true_encode (i : Instr) : decode true (encode i) = .ok i := (encodingStatement i).1

theorem wf_false_eq_false_iff (i : Instr) : i.wf false = false ↔ decode false (encode i) = .error .narrowCodecAbsent :=
  (encodingStatement i).2.2.2.2

theorem Instr.wf_true (i : Instr) : i.wf true = true := by cases i <;> rfl

/-- Whether a build has an operation is whether it decodes the operation's word. -/
theorem decode_encode_iff {narrow : Bool} {i : Instr} : decode narrow (encode i) = .ok i ↔ i.wf narrow = true := by
  cases narrow with
  | true => simp [decode_true_encode, Instr.wf_true]
  | false =>
    rw [← Bool.not_eq_false, wf_false_eq_false_iff]
    rcases decode_base (encode i) with e | e
    · simp [e, decode_true_encode]
    · simp [e]

/-- Settles O2: the decoder reads a word as fields the encoder writes back, and the encoding of an operation decodes where
the build has it. -/
theorem decodeAndEncodeAgree : Obligations.DecodeAndEncodeAgree := by
  intro narrow op i
  constructor
  · intro h
    obtain rfl := encode_of_decode h
    exact ⟨decode_encode_iff.1 h, rfl⟩
  · rintro ⟨hwf, rfl⟩
    exact decode_encode_iff.2 hwf

/-! The opcode map (R56). -/

theorem mem_opcodeMap {op : BitVec 8} {i : Instr} : (op, i) ∈ opcodeMap ↔ encode i = op := by
  have rows : ∀ row ∈ opcodeMap, encode row.2 = row.1 := by decide
  refine ⟨rows (op, i), ?_⟩
  rintro rfl
  cases i <;> decide

theorem Instr.wf_iff {narrow : Bool} {i : Instr} : i.wf narrow = true ↔ narrow = true ∨ i ∉ narrowCodecs := by
  cases i <;> simp [Instr.wf, narrowCodecs]

/-- The rows of R56 that a build has. -/
def legalRows (narrow : Bool) : List (BitVec 8 × Instr) := opcodeMap.filter fun row => row.2.wf narrow

theorem mem_legalRows {narrow : Bool} {op : BitVec 8} {i : Instr} :
    (op, i) ∈ legalRows narrow ↔ decode narrow op = .ok i := by
  rw [legalRows, List.mem_filter, mem_opcodeMap, decodeAndEncodeAgree, and_comm]

theorem isOk_decode_iff {narrow : Bool} {op : BitVec 8} :
    (decode narrow op).isOk = true ↔ op ∈ (legalRows narrow).map Prod.fst := by
  simp only [List.mem_map, Prod.exists, exists_and_right, exists_eq_right, mem_legalRows]
  cases decode narrow op <;> simp [Except.isOk, Except.toBool]

/-- A build has as many legal words as rows: no word stands in two rows of the map. -/
theorem length_filter_isOk_decode (narrow : Bool) :
    ((List.range 256).filter fun n => (decode narrow (BitVec.ofNat 8 n)).isOk).length = (legalRows narrow).length := by
  have words : ((List.range 256).filter fun n => (decode narrow (BitVec.ofNat 8 n)).isOk).Perm
      ((legalRows narrow).map fun row => row.1.toNat) := by
    have nodup : ((legalRows narrow).map fun row => row.1.toNat).Nodup := by cases narrow <;> decide
    refine (List.perm_ext_iff_of_nodup (List.nodup_range.filter _) nodup).2 fun n => ?_
    simp only [List.mem_filter, List.mem_range, isOk_decode_iff, List.mem_map]
    constructor
    · rintro ⟨hn, row, hrow, e⟩
      exact ⟨row, hrow, by rw [e, BitVec.toNat_ofNat, Nat.mod_eq_of_lt hn]⟩
    · rintro ⟨row, hrow, rfl⟩
      exact ⟨row.1.isLt, row, hrow, by simp⟩
  rw [words.length_eq, List.length_map]

/-- Settles O1: the map's rows are the encodings, so by O2 a build decodes its rows' words, and as many as it has rows. -/
theorem opcodeMapIsTheLegalWords : Obligations.OpcodeMapIsTheLegalWords := by
  refine ⟨fun narrow op i => ?_, ?_, ?_⟩
  · rw [decodeAndEncodeAgree, mem_opcodeMap, ← Instr.wf_iff, and_comm]
  · rw [length_filter_isOk_decode]; rfl
  · rw [length_filter_isOk_decode]; rfl

end Sys2Proof
end

section
/-! Conversion (40_conversion.md): the records of a scalar and a fill as extensions of the scalar (R70, R79), the constructors
that return them, and their agreement across the widths (R84). -/

namespace Sys2Proof.Machine

/-! Sign filling is sign extension (R70). -/

/-- A wider sign extension is a narrower one with copies of the sign bit above. -/
theorem signBits_append_signExtend {k m n : Nat} (x : BitVec k) (hk : k ≤ n) :
    (if x.msb then BitVec.allOnes m else 0#m) ++ x.signExtend n = x.signExtend (m + n) := by
  apply BitVec.eq_of_getLsbD_eq
  intro i hi
  rw [BitVec.getLsbD_append, BitVec.getLsbD_signExtend, BitVec.getLsbD_signExtend]
  by_cases hlow : i < n
  · simp [hlow, hi]
  · have hfill : i - n < m := by omega
    cases hsign : x.msb <;> simp [hlow, hi, hfill, show ¬ i < k by omega]

theorem signFill_eq (s : Lane) : signFill s = if s.msb then BitVec.allOnes 64 else 0#64 := by
  rw [BitVec.msb_eq_getLsbD_last]
  rfl

theorem fill128_signFill_bits (s : Lane) :
    (fill128 (signFill s)).bits = if s.msb then BitVec.allOnes 128 else 0#128 := by
  rw [signFill_eq]
  cases s.msb <;> rfl

theorem fill256_signFill_bits (s : Lane) :
    (fill256 (signFill s)).bits = if s.msb then BitVec.allOnes 256 else 0#256 := by
  rw [signFill_eq]
  cases s.msb <;> rfl

theorem place128_signFill_bits (s : Lane) : (place128 s (signFill s)).bits = s.signExtend 128 :=
  calc signFill s ++ s = (if s.msb then BitVec.allOnes 64 else 0#64) ++ s.signExtend 64 := by
        rw [signFill_eq, BitVec.signExtend_eq]
    _ = s.signExtend 128 := signBits_append_signExtend s (le_refl 64)

theorem place256_signFill_bits (s : Lane) : (place256 s (signFill s)).bits = s.signExtend 256 :=
  calc (fill128 (signFill s)).bits ++ (place128 s (signFill s)).bits
      = (if s.msb then BitVec.allOnes 128 else 0#128) ++ s.signExtend 128 := by
        rw [fill128_signFill_bits, place128_signFill_bits]
    _ = s.signExtend 256 := signBits_append_signExtend s (by decide)

theorem place512_signFill_bits (s : Lane) : (place512 s (signFill s)).bits = s.signExtend 512 :=
  calc (fill256 (signFill s)).bits ++ (place256 s (signFill s)).bits
      = (if s.msb then BitVec.allOnes 256 else 0#256) ++ s.signExtend 256 := by
        rw [fill256_signFill_bits, place256_signFill_bits]
    _ = s.signExtend 512 := signBits_append_signExtend s (by decide)

theorem toInt_of_eq_signExtend {k N : Nat} {v : BitVec N} {x : BitVec k} (h : v = x.signExtend N) (hk : k ≤ N) :
    v.toInt = x.toInt := by
  rw [h, BitVec.toInt_signExtend_of_le hk]

/-- The unsigned value from the signed one (R75). -/
theorem toNat_eq_of_toInt {N : Nat} (v : BitVec N) :
    (v.toNat : Int) = if v.toInt < 0 then 2 ^ N + v.toInt else v.toInt := by
  have hvalue := BitVec.toInt_eq_msb_cond v
  simp only [BitVec.msb_eq_toInt, decide_eq_true_eq] at hvalue
  split at hvalue
  · next hneg =>
    push_cast at hvalue
    rw [if_pos hneg]
    omega
  · next hneg => rw [if_neg hneg, hvalue]

theorem toNat_of_eq_signExtend {k N : Nat} {v : BitVec N} {x : BitVec k} (h : v = x.signExtend N) (hk : k ≤ N) :
    (v.toNat : Int) = if x.toInt < 0 then 2 ^ N + x.toInt else x.toInt := by
  rw [toNat_eq_of_toInt, toInt_of_eq_signExtend h hk]

/-- Settles O14: the sign-filled record is the scalar's sign extension, which keeps the signed value. -/
theorem signedConstructors : Obligations.SignedConstructors := by
  intro s f a b c
  have ha : a.bits = s.req.s.signExtend 128 := place128_signFill_bits s.req.s
  have hb : b.bits = s.req.s.signExtend 256 := place256_signFill_bits s.req.s
  have hc : c.bits = s.req.s.signExtend 512 := place512_signFill_bits s.req.s
  exact ⟨rfl, rfl, rfl, rfl, rfl, rfl, ha, hb, hc, toInt_of_eq_signExtend ha (by decide),
    toInt_of_eq_signExtend hb (by decide), toInt_of_eq_signExtend hc (by decide)⟩

/-- Settles O15: the signed constructor's bits under the unsigned type, read modulo `2 ^ N`. -/
theorem unsignedConstructorsFromSigned : Obligations.UnsignedConstructorsFromSigned := by
  intro s f a b c
  have ha : a.bits = s.req.s.signExtend 128 := place128_signFill_bits s.req.s
  have hb : b.bits = s.req.s.signExtend 256 := place256_signFill_bits s.req.s
  have hc : c.bits = s.req.s.signExtend 512 := place512_signFill_bits s.req.s
  exact ⟨rfl, rfl, rfl, rfl, rfl, rfl, ha, hb, hc, toNat_of_eq_signExtend ha (by decide),
    toNat_of_eq_signExtend hb (by decide), toNat_of_eq_signExtend hc (by decide), rfl, rfl, rfl⟩

/-! Zero filling is zero extension (R79). -/

/-- A wider zero extension is a narrower one with zeros above. -/
theorem zero_append_setWidth {k m n : Nat} (x : BitVec k) (hk : k ≤ n) :
    0#m ++ x.setWidth n = x.setWidth (m + n) := by
  apply BitVec.eq_of_toNat_eq
  rw [BitVec.toNat_append, BitVec.toNat_setWidth_of_le hk, BitVec.toNat_setWidth_of_le (by omega)]
  simp

theorem place128_zero_bits (s : Lane) : (place128 s zero64).bits = s.setWidth 128 :=
  calc 0#64 ++ s = 0#64 ++ s.setWidth 64 := by rw [BitVec.setWidth_eq]
    _ = s.setWidth 128 := zero_append_setWidth s (le_refl 64)

theorem place256_zero_bits (s : Lane) : (place256 s zero64).bits = s.setWidth 256 :=
  calc (fill128 zero64).bits ++ (place128 s zero64).bits = 0#128 ++ s.setWidth 128 := by
        rw [place128_zero_bits]; rfl
    _ = s.setWidth 256 := zero_append_setWidth s (by decide)

theorem place512_zero_bits (s : Lane) : (place512 s zero64).bits = s.setWidth 512 :=
  calc (fill256 zero64).bits ++ (place256 s zero64).bits = 0#256 ++ s.setWidth 256 := by
        rw [place256_zero_bits]; rfl
    _ = s.setWidth 512 := zero_append_setWidth s (by decide)

theorem toNat_of_eq_setWidth {k N : Nat} {v : BitVec N} {x : BitVec k} (h : v = x.setWidth N) (hk : k ≤ N) :
    v.toNat = x.toNat := by
  rw [h, BitVec.toNat_setWidth_of_le hk]

/-- Settles O16: the zero-filled record is the scalar's zero extension, which keeps the unsigned value. -/
theorem unsignedConstructorsFromUnsigned : Obligations.UnsignedConstructorsFromUnsigned := by
  intro s f a b c
  have ha : a.bits = s.req.s.setWidth 128 := place128_zero_bits s.req.s
  have hb : b.bits = s.req.s.setWidth 256 := place256_zero_bits s.req.s
  have hc : c.bits = s.req.s.setWidth 512 := place512_zero_bits s.req.s
  exact ⟨rfl, rfl, rfl, rfl, rfl, rfl, ha, hb, hc, toNat_of_eq_setWidth ha (by decide),
    toNat_of_eq_setWidth hb (by decide), toNat_of_eq_setWidth hc (by decide)⟩

/-! What a conversion reads (R71). -/

/-- The `r` port after an operation done right after reset, with `x` on the scalar port; 0 where it stops. -/
def resultFromReset (i : Instr) (x : Lane) : BitVec 512 :=
  match exec i { State.reset with req := { State.reset.req with s := x } } with
  | .next t => t.resp.r
  | .fault _ => 0#512
  | .refused _ => 0#512

/-- A conversion does in every state what it does right after reset on the same scalar, and changes nothing else. -/
theorem exec_eq_resultFromReset {i : Instr} (h : (scalarOperand i).isSome = true) (s : State) :
    exec i s = .next { s with resp := { status := .ok, r := resultFromReset i s.req.s } } := by
  cases i with
  | u128FromInt | u128FromUint | s128FromInt | d128FromInt | u256FromInt | u256FromUint | s256FromInt | d256FromInt
  | u512FromInt | u512FromUint | s512FromInt | d512FromInt => rfl
  | _ => cases h

/-- Settles O18: the function of the scalar is what the operation returns right after reset. -/
theorem conversionIsTotalAndReadsOnlyTheScalar : Obligations.ConversionIsTotalAndReadsOnlyTheScalar :=
  fun i h => ⟨resultFromReset i, exec_eq_resultFromReset h⟩

/-! The widths agree (R84): each record is the narrower one with a record of fill lanes above. -/

theorem setWidth_128_bits (x : U256) : x.bits.setWidth 128 = x.low.bits := BitVec.setWidth_append_eq_right
theorem setWidth_256_bits (x : U512) : x.bits.setWidth 256 = x.low.bits := BitVec.setWidth_append_eq_right

/-- Three operations that place the scalar under one fill, at the three widths, agree across them. -/
theorem widthsConsistent_of_place {i128 i256 i512 : Instr} {fill : Lane → Lane}
    (h128 : ∀ s, exec i128 s = .next (s.respond (place128 s.scalar (fill s.scalar)).bits))
    (h256 : ∀ s, exec i256 s = .next (s.respond (place256 s.scalar (fill s.scalar)).bits))
    (h512 : ∀ s, exec i512 s = .next (s.respond (place512 s.scalar (fill s.scalar)).bits)) :
    WidthsConsistent i128 i256 i512 fill := by
  intro s
  refine ⟨_, _, _, h128 s, h256 s, h512 s, ?_, ?_, ?_, ?_⟩
  · simp [setWidth_128_bits, place256]
  · simp [setWidth_256_bits, place512]
  · rw [State.respond_resp, BitVec.extractLsb'_setWidth_of_le (by decide)]
    exact U256.high_of_bits _
  · rw [State.respond_resp, BitVec.setWidth_eq]
    exact U512.high_of_bits _

/-- Settles O19: each family places the scalar under its fill, the signed records sharing the unsigned layout. -/
theorem conversionsAgreeAcrossWidths : Obligations.ConversionsAgreeAcrossWidths :=
  ⟨widthsConsistent_of_place (fun _ => rfl) (fun _ => rfl) (fun _ => rfl),
    widthsConsistent_of_place (fun _ => rfl) (fun _ => rfl) (fun _ => rfl),
    widthsConsistent_of_place (fun _ => rfl) (fun _ => rfl) (fun _ => rfl)⟩

end Sys2Proof.Machine
end

section
/-! Reinterpretation (41_reinterpret.md): a cast moves the lanes of its operand into a record of another type (R91 to R96), so
it keeps the bits; the two casts of a width and the constructors against them (R97). -/

namespace Sys2Proof.Machine

/-! A change of type keeps the record's bits. -/

@[simp] theorem u128OfS_bits (x : S128) : (u128OfS x).bits = x.bits := rfl
@[simp] theorem s128OfU_bits (x : U128) : (s128OfU x).bits = x.bits := rfl
@[simp] theorem u256OfS_bits (x : S256) : (u256OfS x).bits = x.bits := rfl
@[simp] theorem s256OfU_bits (x : U256) : (s256OfU x).bits = x.bits := rfl
@[simp] theorem u512OfS_bits (x : S512) : (u512OfS x).bits = x.bits := rfl
@[simp] theorem s512OfU_bits (x : U512) : (s512OfU x).bits = x.bits := rfl

/-- An operation that always responds with the low N bits of `w` is a reinterpretation. -/
theorem reinterprets_of_respond {i : Instr} {op : BitVec 8} {N : Nat} {v : State → BitVec N} (hop : encode i = op)
    (hexec : ∀ s, exec i s = .next (s.respond (v s))) (hbits : ∀ s, v s = s.req.w.setWidth N) :
    Reinterprets i op N := by
  refine ⟨hop, fun s => ?_⟩
  rw [hexec, hbits]
  rfl

/-- The unsigned reading is the signed one, with `2 ^ N` added where the top bit is 1. -/
theorem readingsAgree (N : Nat) : ReadingsAgree N := by
  intro v
  simp only [toNat_eq_of_toInt, BitVec.msb_eq_toInt, decide_eq_true_eq, Int.add_comm]

/-- Settles O20: the response is the operand's record under another type, and the record's bits are the operand's. -/
theorem signedUnsignedCastsKeepTheBits : Obligations.SignedUnsignedCastsKeepTheBits :=
  ⟨reinterprets_of_respond rfl (fun _ => rfl) fun s => by simp [State.wide128],
    reinterprets_of_respond rfl (fun _ => rfl) fun s => by simp [State.wide128],
    reinterprets_of_respond rfl (fun _ => rfl) fun s => by simp [State.wide256],
    reinterprets_of_respond rfl (fun _ => rfl) fun s => by simp [State.wide256],
    reinterprets_of_respond rfl (fun _ => rfl) fun s => by simp [State.wide512],
    reinterprets_of_respond rfl (fun _ => rfl) fun s => by simp [State.wide512],
    readingsAgree 128, readingsAgree 256, readingsAgree 512⟩

/-! A value put on a port comes back unchanged through a reinterpretation of its width (R97). -/

theorem port_reread {N : Nat} (hN : N ≤ 512) (v : BitVec N) :
    ((v.setWidth 512).setWidth N).setWidth 512 = v.setWidth 512 := by
  rw [BitVec.setWidth_setWidth_of_le v hN, BitVec.setWidth_eq]

theorem castsInvert_of_reinterprets {i j : Instr} {op op' : BitVec 8} {N : Nat} (hN : N ≤ 512)
    (hi : Reinterprets i op N) (hj : Reinterprets j op' N) : CastsInvert i j N := by
  obtain ⟨-, hi⟩ := hi
  obtain ⟨-, hj⟩ := hj
  intro s
  exact ⟨_, _, hi s, hj _, congrArg (RespPorts.mk .ok) (port_reread hN _)⟩

/-- A constructor that responds as the signed one does is the signed one followed by a cast. -/
theorem constructorIsCast_of_reinterprets {u sgn cast : Instr} {op : BitVec 8} {N : Nat} {v : State → BitVec N}
    (hN : N ≤ 512) (hsgn : ∀ s, exec sgn s = .next (s.respond (v s))) (hu : ∀ s, exec u s = exec sgn s)
    (hcast : Reinterprets cast op N) : ConstructorIsCast u sgn cast := by
  obtain ⟨-, hcast⟩ := hcast
  intro s
  exact ⟨_, _, _, hsgn s, hcast _, (hu s).trans (hsgn s), congrArg (RespPorts.mk .ok) (port_reread hN (v s))⟩

/-- The unsigned reading is the signed one modulo `2 ^ N` (R97). -/
theorem toNat_eq_toInt_emod {N : Nat} (v : BitVec N) : (v.toNat : Int) = v.toInt % 2 ^ N := by
  calc (v.toNat : Int) = v.toNat % (2 ^ N : Nat) := by rw [← Int.natCast_mod, Nat.mod_eq_of_lt v.isLt]
    _ = v.toInt % (2 ^ N : Nat) := by rw [BitVec.toInt_eq_toNat_bmod, Int.bmod_emod]
    _ = v.toInt % 2 ^ N := by rw [Nat.cast_pow, Nat.cast_ofNat]

/-- Settles O22: casts keep the bits (O20), and the unsigned constructor returns the signed one's bits. -/
theorem castsInvertEachOther : Obligations.CastsInvertEachOther := by
  obtain ⟨us128, su128, us256, su256, us512, su512, -⟩ := signedUnsignedCastsKeepTheBits
  exact ⟨castsInvert_of_reinterprets (by decide) us128 su128, castsInvert_of_reinterprets (by decide) su128 us128,
    castsInvert_of_reinterprets (by decide) us256 su256, castsInvert_of_reinterprets (by decide) su256 us256,
    castsInvert_of_reinterprets (by decide) us512 su512, castsInvert_of_reinterprets (by decide) su512 us512,
    constructorIsCast_of_reinterprets (by decide) (fun _ => rfl) (fun _ => rfl) us128,
    constructorIsCast_of_reinterprets (by decide) (fun _ => rfl) (fun _ => rfl) us256,
    constructorIsCast_of_reinterprets (by decide) (fun _ => rfl) (fun _ => rfl) us512,
    toNat_eq_toInt_emod, toNat_eq_toInt_emod, toNat_eq_toInt_emod⟩

end Sys2Proof.Machine
end

section
/-! The byte codecs (42_codec512.md): what a decode and an encode of `n` bytes do (R101, R102), and the two against each other
(R103, R104). Each is stated for every width, from what the width's records read and write. -/

namespace Sys2Proof
open Machine

/-- A decode whose read answers on every long enough buffer with that buffer's bytes. -/
theorem decodes_of_decodeOp {i : Instr} {op : BitVec 8} {n N : Nat} {read : Buffer → Option (BitVec N)} (hop : encode i = op)
    (hexec : ∀ s, exec i s = decodeOp n read s)
    (hread : ∀ b : Buffer, n ≤ b.len → ∃ v, read b = some v ∧ ∀ a, a < n → v.extractLsb' (8 * a) 8 = b.byte a) :
    Decodes i op n N := by
  refine ⟨hop, fun s => ?_⟩
  rw [hexec]
  rcases decodeOp_cases s fun hlen => (hread _ hlen).imp fun _ => And.left with ⟨hshort, e⟩ | ⟨v, hlen, hv, e⟩
  · exact ⟨fun hlen => by omega, fun _ => e⟩
  · obtain ⟨u, hu, hbytes⟩ := hread _ hlen
    cases hv.symm.trans hu
    exact ⟨fun _ => ⟨v, e, hbytes, fun k hk => Buffer.memReadLane_eq_lane hlen hbytes (by omega)⟩, fun hshort => by omega⟩

/-- An encode whose write answers on every long enough buffer with the value's bytes written from offset 0. -/
theorem encodes_of_encodeOp {i : Instr} {op : BitVec 8} {n N : Nat} {write : BitVec N → Buffer → Option Buffer} (hn : 0 < n)
    (hop : encode i = op) (hexec : ∀ s, exec i s = encodeOp n (write (s.req.w.setWidth N)) s)
    (hwrite : ∀ (v : BitVec N) (b : Buffer), n ≤ b.len →
      ∃ b', write v b = some b' ∧ b.Wrote b' 0 n fun a => v.extractLsb' (8 * a) 8) :
    Encodes i op n N := by
  refine ⟨hop, fun s hw => ?_⟩
  rw [hexec]
  rcases encodeOp_cases s fun hlen => (hwrite (s.req.w.setWidth N) _ hlen).imp fun _ => And.left with
    ⟨hro, -⟩ | ⟨-, hshort, e⟩ | ⟨b, -, hlen, hb, e⟩
  · exact absurd hw (by simp [hro])
  · exact ⟨fun hlen => by omega, fun _ => e⟩
  · obtain ⟨c, hc, hwrote⟩ := hwrite (s.req.w.setWidth N) _ hlen
    cases hb.symm.trans hc
    have hbuf : (s.setBuffer s.req.buf b).respondDone.buffer s.req.buf = b := reqBuffer_of_wrote hn hwrote
    refine ⟨fun _ => ⟨_, e, rfl, ?_⟩, fun hshort => by omega⟩
    rw [hbuf]
    exact ⟨fun a => by simpa using hwrote.byte a, fun k hk => hwrote.memReadLane (by omega), hwrote.len,
      hwrote.writable.trans hw, List.length_set .., rfl⟩

/-- Settles O23: the record read at offset 0 has the buffer's 64 bytes. -/
theorem decodeOf512Bits : Obligations.DecodeOf512Bits :=
  decodes_of_decodeOp (read := fun b => (b.readU512 0).map U512.bits) rfl (fun _ => rfl) fun b hlen => by
    obtain ⟨x, hx⟩ := Buffer.readU512_isSome (b := b) (off := 0) (by omega)
    exact ⟨x.bits, by simp [hx], fun a ha => by simpa using Buffer.readU512_bytes hx a ha⟩

/-- Settles O24: the record written at offset 0 is the wide port's, so the bytes written are the port's. -/
theorem encodeOf512Bits : Obligations.EncodeOf512Bits :=
  encodes_of_encodeOp (write := fun v b => b.writeU512 0 (U512.ofBits v)) (by decide) rfl
    (fun s => by rw [BitVec.setWidth_eq]; rfl) fun v b hlen => by
      obtain ⟨c, hc⟩ := Buffer.writeU512_isSome (b := b) (off := 0) (U512.ofBits v) (by omega)
      exact ⟨c, hc, by simpa using Buffer.writeU512_wrote hc⟩

/-! The round trips. -/

/-- A decode returns any value whose bytes the buffer holds: they pin every bit of it. -/
theorem Decodes.exec_eq_of_bytes {d : Instr} {op : BitVec 8} {n : Nat} (h : Decodes d op n (8 * n)) {c : State}
    {v : BitVec (8 * n)} (hlen : n ≤ c.reqBuffer.len) (hv : ∀ a, a < n → c.reqBuffer.byte a = v.extractLsb' (8 * a) 8) :
    exec d c = .next { c with resp := { status := .ok, r := v.setWidth 512 } } := by
  obtain ⟨u, e, hu, -⟩ := (h.2 c).1 hlen
  rw [e, eq_of_extract_bytes fun a ha => (hu a ha).trans (hv a ha)]

/-- A decode of the bytes an encode wrote returns the encoded value (R103). -/
theorem Encodes.decode_returns {e d : Instr} {op op' : BitVec 8} {n : Nat} (he : Encodes e op n (8 * n))
    (hd : Decodes d op' n (8 * n)) {s : State} (hw : s.reqBuffer.writable = true) (hlen : n ≤ s.reqBuffer.len) :
    ∃ t : State, exec e s = .next t ∧ t.resp.status = .ok ∧
      ∀ c : State, n ≤ c.reqBuffer.len → (∀ a, a < n → c.reqBuffer.byte a = (t.buffer s.req.buf).byte a) →
        exec d c = .next { c with resp := { status := .ok, r := (s.req.w.setWidth (8 * n)).setWidth 512 } } := by
  obtain ⟨t, hexec, hok, hbyte, -⟩ := (he.2 s hw).1 hlen
  exact ⟨t, hexec, hok, fun c hc hsame =>
    hd.exec_eq_of_bytes hc fun a ha => (hsame a ha).trans ((hbyte a).trans (if_pos ha))⟩

/-- An encode of the value a decode returned writes the decoded bytes (R104). -/
theorem Decodes.encode_reproduces {e d : Instr} {op op' : BitVec 8} {n N : Nat} (hd : Decodes d op n N)
    (he : Encodes e op' n N) (hN : N ≤ 512) {s : State} (hlen : n ≤ s.reqBuffer.len) :
    ∃ t : State, exec d s = .next t ∧ t.resp.status = .ok ∧
      ∀ c : State, c.reqBuffer.writable = true → n ≤ c.reqBuffer.len → c.req.w = t.resp.r →
        ∃ u : State, exec e c = .next u ∧ u.resp.status = .ok ∧
          ∀ a, a < n → (u.buffer c.req.buf).byte a = s.reqBuffer.byte a := by
  obtain ⟨v, hexec, hv, -⟩ := (hd.2 s).1 hlen
  refine ⟨_, hexec, rfl, fun c hw hc hport => ?_⟩
  obtain ⟨u, hexec', hok, hbyte, -⟩ := (he.2 c hw).1 hc
  have hvalue : c.req.w.setWidth N = v := by
    rw [hport, BitVec.setWidth_setWidth_of_le v hN, BitVec.setWidth_eq]
  exact ⟨u, hexec', hok, fun a ha => by rw [hbyte, if_pos ha, hvalue, hv a ha]⟩

/-- Settles O29: the round trip at 64 bytes, whose value is the whole wide port. -/
theorem encodeThenDecodeReturnsTheValue : Obligations.EncodeThenDecodeReturnsTheValue := fun s hw hlen => by
  simpa only [Nat.reduceMul, BitVec.setWidth_eq] using
    Encodes.decode_returns (n := 64) encodeOf512Bits decodeOf512Bits hw hlen

/-- Settles O30: the round trip at 64 bytes. -/
theorem decodeThenEncodeReproducesTheBytes : Obligations.DecodeThenEncodeReproducesTheBytes := fun _ hlen =>
  decodeOf512Bits.encode_reproduces encodeOf512Bits (le_refl _) hlen

end Sys2Proof
end

section
/-! A value on the wire (42_codec512.md): a transaction of an idle unit is its operation on the request's ports and the
response taken (R21, R41), so an encode and a decode of one buffer hand a value over (R103). -/

namespace Sys2Proof.Machine

/-- The answer to the request an idle unit accepted last: its operation on its ports, and the response taken. -/
theorem answer_append_of_idle {s : State} {p : Pending} {i : Instr} (hb : s.busy p.unit = false)
    (hi : decode s.build.narrowCodecs p.ports.op = .ok i) :
    answer p.unit { s with inFlight := s.inFlight ++ [p] } =
      andThen (exec i { s with req := p.ports }) (fun t => .next (t.collect i p)) := by
  have hothers : (s.inFlight ++ [p]).filter (fun x => x.unit != p.unit) = s.inFlight := by
    simpa [State.busy, List.filter_eq_self] using hb
  refine (answer_eq (s := { s with inFlight := s.inFlight ++ [p] }) (find_append_of_idle hb) hi).trans ?_
  simp only [State.present, hothers]

/-- A transaction as the next move: the request is accepted, and answered at once. -/
theorem step_transact {s : State} {unit : Nat} {q : Request} {rest : List HostMove} {i : Instr} {w : BitVec 512}
    (hs : s.script = .transact unit q :: rest) (hu : unit < s.build.numUnits) (hb : s.busy unit = false)
    (hi : decode s.build.narrowCodecs q.op = .ok i) (hw : s.driveWide i q.w = .ok w)
    (hc : ∀ x ∈ s.inFlight, s.conflict x ⟨unit, ⟨q.op, q.s, w, q.buf⟩, q.dst⟩ = false) :
    step s = andThen (exec i { s with script := rest, req := ⟨q.op, q.s, w, q.buf⟩ })
      (fun t => .next (t.collect i ⟨unit, ⟨q.op, q.s, w, q.buf⟩, q.dst⟩)) := by
  have hissue := issue_eq_next (s := { s with script := rest }) hu hb hi hw hc
  calc step s = andThen (issue unit q { s with script := rest }) (answer unit) := step_cons hs
    _ = answer unit { s with script := rest, inFlight := s.inFlight ++ [⟨unit, ⟨q.op, q.s, w, q.buf⟩, q.dst⟩] } := by
      rw [hissue]; rfl
    _ = _ := answer_append_of_idle (s := { s with script := rest }) (p := ⟨unit, ⟨q.op, q.s, w, q.buf⟩, q.dst⟩) hb hi

/-- A transaction on an idle machine whose operation gives a next state: the host takes that state's response. -/
theorem step_transact_of_idle {s t : State} {unit : Nat} {q : Request} {rest : List HostMove} {i : Instr} {w : BitVec 512}
    (hs : s.script = .transact unit q :: rest) (hf : s.inFlight = []) (hu : unit < s.build.numUnits)
    (hi : decode s.build.narrowCodecs q.op = .ok i) (hw : s.driveWide i q.w = .ok w)
    (hexec : exec i { s with script := rest, req := ⟨q.op, q.s, w, q.buf⟩ } = .next t) :
    step s = .next (t.collect i ⟨unit, ⟨q.op, q.s, w, q.buf⟩, q.dst⟩) := by
  rw [step_transact hs hu (by simp [State.busy, hf]) hi hw (by simp [hf]), hexec]
  rfl

/-- An operation that ignores the wide port is driven, whatever its operand (R60, U8; log entry 15). -/
theorem driveWide_of_ignored {i : Instr} (h : wideOperandType i = none) (s : State) (o : WideOperand) :
    ∃ w, s.driveWide i o = .ok w := by
  cases o with
  | port w => exact ⟨w, rfl⟩
  | held name => cases hv : s.value? name <;> simp [State.driveWide, hv, h]

theorem decode_enc512_word (narrow : Bool) : decode narrow 0xA4#8 = .ok .enc512 := decode_encode_iff (i := .enc512).2 rfl
theorem decode_dec512_word (narrow : Bool) : decode narrow 0xA0#8 = .ok .dec512 := decode_encode_iff (i := .dec512).2 rfl

/-- A whole `ENC512` on an idle machine, of a pattern the host can drive into a long enough buffer it may write. -/
theorem step_enc512 {s : State} {unit k : Nat} {sc : Lane} {o : WideOperand} {dst : Option Nat} {w : BitVec 512}
    {rest : List HostMove} (hs : s.script = .transact unit { op := 0xA4#8, s := sc, w := o, buf := k, dst := dst } :: rest)
    (hf : s.inFlight = []) (hu : unit < s.build.numUnits) (hw : s.driveWide .enc512 o = .ok w)
    (hmark : (s.buffer k).writable = true) (hlen : 64 ≤ (s.buffer k).len) :
    ∃ t, step s = .next t ∧ t.script = rest ∧ t.inFlight = [] ∧ t.build = s.build ∧ 64 ≤ (t.buffer k).len ∧
      (∀ a, a < 64 → (t.buffer k).byte a = w.extractLsb' (8 * a) 8) ∧
      t.responses = s.responses ++ [{ unit := unit, status := .ok, value := none }] := by
  obtain ⟨t, hexec, hok, hbyte, -, hlen', -, -, hframe⟩ :=
    (encodeOf512Bits.2 { s with script := rest, req := ⟨0xA4#8, sc, w, k⟩ } hmark).1 hlen
  have hresponses : t.responses = s.responses := by rw [hframe]
  refine ⟨_, step_transact_of_idle hs hf hu (decode_enc512_word _) hw hexec, by rw [hframe]; rfl, by rw [hframe]; exact hf,
    by rw [hframe]; rfl, hlen.trans hlen'.ge, fun a ha => ?_, ?_⟩
  · exact (hbyte a).trans (by rw [if_pos ha, BitVec.setWidth_eq])
  · simp [State.responseValue, resultType, hok, hresponses]

/-- A whole `DEC512` on an idle machine, of a long enough buffer that holds the bytes of `v`. -/
theorem step_dec512 {s : State} {unit k d : Nat} {sc : Lane} {o : WideOperand} {v : BitVec 512} {rest : List HostMove}
    (hs : s.script = .transact unit { op := 0xA0#8, s := sc, w := o, buf := k, dst := some d } :: rest)
    (hf : s.inFlight = []) (hu : unit < s.build.numUnits) (hlen : 64 ≤ (s.buffer k).len)
    (hv : ∀ a, a < 64 → (s.buffer k).byte a = v.extractLsb' (8 * a) 8) :
    ∃ t, step s = .next t ∧ t.value? d = some (.u512 (U512.ofBits v)) ∧ t.script = rest ∧
      t.responses = s.responses ++ [{ unit := unit, status := .ok, value := some (.u512 (U512.ofBits v)) }] := by
  obtain ⟨w, hw⟩ := driveWide_of_ignored (i := .dec512) rfl s o
  have hexec := Decodes.exec_eq_of_bytes (n := 64) decodeOf512Bits
    (c := { s with script := rest, req := ⟨0xA0#8, sc, w, k⟩ }) hlen hv
  refine ⟨_, step_transact_of_idle hs hf hu (decode_dec512_word _) hw hexec, ?_, rfl, ?_⟩
  · simp [State.value?_collect, State.responseValue, resultType, WideValue.ofPort]
  · simp [State.responseValue, resultType, WideValue.ofPort]

/-- Settles O52: the encode leaves the value's bytes in the buffer, and the decode returns the value of those bytes. -/
theorem aHeldValueSurvivesTheWire : Obligations.AHeldValueSurvivesTheWire := by
  intro s unit k n d sc sc' o x rest hf hu hmark hlen hheld hs
  have hport : s.driveWide .enc512 (.held n) = .ok x.bits := by
    simp [State.driveWide, hheld, WideValue.port]
  obtain ⟨t, hstep, hscript, hidle, hbuild, hlen', hbyte, hresponse⟩ := step_enc512 hs hf hu hport hmark hlen
  obtain ⟨u, hstep', hvalue, hrest, hresponse'⟩ := step_dec512 hscript hidle (hbuild ▸ hu) hlen' hbyte
  rw [U512.ofBits_bits] at hvalue hresponse'
  exact ⟨u, (run_next (M := core) 1 hstep).trans (run_next (M := core) 0 hstep'), hvalue, hrest,
    by simp [hresponse', hresponse]⟩

end Sys2Proof.Machine
end

section
/-! The decimal aliases (43_decimal.md): a decimal is the signed record of its width (R16), so its constructors are the signed
ones (R110), its casts to and from the unsigned type are the signed type's, and those to and from the signed type keep the
record whole (R114). -/

namespace Sys2Proof.Machine

/-! The constructors. -/

theorem exec_d128FromInt (s : State) : exec .d128FromInt s = exec .s128FromInt s := rfl
theorem exec_d256FromInt (s : State) : exec .d256FromInt s = exec .s256FromInt s := rfl
theorem exec_d512FromInt (s : State) : exec .d512FromInt s = exec .s512FromInt s := rfl

/-- Settles O17: the decimal constructor does what the signed one does (O14). -/
theorem decimalConstructors : Obligations.DecimalConstructors := by
  intro s f a b c
  obtain ⟨-, -, -, hexec128, hexec256, hexec512, hrecord⟩ := signedConstructors s
  obtain ⟨ha, hb, hc, hinta, hintb, hintc⟩ := hrecord
  exact ⟨rfl, rfl, rfl,
    (exec_d128FromInt s).trans hexec128, (exec_d256FromInt s).trans hexec256, (exec_d512FromInt s).trans hexec512,
    ha, hb, hc, hinta, hintb, hintc, exec_d128FromInt s, exec_d256FromInt s, exec_d512FromInt s⟩

/-! The casts between a decimal and an unsigned type. -/

theorem exec_cast128UD (s : State) : exec .cast128UD s = exec .cast128US s := rfl
theorem exec_cast128DU (s : State) : exec .cast128DU s = exec .cast128SU s := rfl
theorem exec_cast256UD (s : State) : exec .cast256UD s = exec .cast256US s := rfl
theorem exec_cast256DU (s : State) : exec .cast256DU s = exec .cast256SU s := rfl
theorem exec_cast512UD (s : State) : exec .cast512UD s = exec .cast512US s := rfl
theorem exec_cast512DU (s : State) : exec .cast512DU s = exec .cast512SU s := rfl

/-- An operation that does what a reinterpretation does is one, under its own word. -/
theorem reinterprets_of_exec_eq {i j : Instr} {op op' : BitVec 8} {N : Nat} (hj : Reinterprets j op' N)
    (hop : encode i = op) (hexec : ∀ s, exec i s = exec j s) : Reinterprets i op N := by
  obtain ⟨-, hkeeps⟩ := hj
  exact ⟨hop, fun s => (hexec s).trans (hkeeps s)⟩

/-! The casts between a decimal and the signed type. -/

theorem d128OfS_eq (x : S128) : d128OfS x = x := rfl
theorem s128OfD_eq (x : D128) : s128OfD x = x := rfl
theorem d256OfS_eq (x : S256) : d256OfS x = x := rfl
theorem s256OfD_eq (x : D256) : s256OfD x = x := rfl
theorem d512OfS_eq (x : S512) : d512OfS x = x := rfl
theorem s512OfD_eq (x : D512) : s512OfD x = x := rfl

/-- Settles O21: between decimal and unsigned a cast does what the signed type's cast does (O20); between decimal and signed
the response is the operand's own record. -/
theorem decimalCastsKeepTheBits : Obligations.DecimalCastsKeepTheBits := by
  obtain ⟨us128, su128, us256, su256, us512, su512, hreadings⟩ := signedUnsignedCastsKeepTheBits
  exact ⟨reinterprets_of_exec_eq us128 rfl exec_cast128UD,
    reinterprets_of_respond rfl (fun _ => rfl) fun s => by rw [s128OfD_eq, S128.bits_ofBits, State.wide128],
    reinterprets_of_exec_eq su128 rfl exec_cast128DU,
    reinterprets_of_respond rfl (fun _ => rfl) fun s => by rw [d128OfS_eq, S128.bits_ofBits, State.wide128],
    reinterprets_of_exec_eq us256 rfl exec_cast256UD,
    reinterprets_of_respond rfl (fun _ => rfl) fun s => by rw [s256OfD_eq, S256.bits_ofBits, State.wide256],
    reinterprets_of_exec_eq su256 rfl exec_cast256DU,
    reinterprets_of_respond rfl (fun _ => rfl) fun s => by rw [d256OfS_eq, S256.bits_ofBits, State.wide256],
    reinterprets_of_exec_eq us512 rfl exec_cast512UD,
    reinterprets_of_respond rfl (fun _ => rfl) fun s => by rw [s512OfD_eq, S512.bits_ofBits, State.wide512, BitVec.setWidth_eq],
    reinterprets_of_exec_eq su512 rfl exec_cast512DU,
    reinterprets_of_respond rfl (fun _ => rfl) fun s => by rw [d512OfS_eq, S512.bits_ofBits, State.wide512, BitVec.setWidth_eq],
    hreadings⟩

end Sys2Proof.Machine
end

section
/-! The narrow codecs (44_narrow_codecs.md): what a codec of a record type does, from how the record is read and written at
offset 0 (R130), the round trips at 16 and 32 bytes (R135), and the image of a record against its halves' images (R136). -/

namespace Sys2Proof
open Machine

/-- A decode that returns the bits of a record read at offset 0: the record exists on every long enough buffer and has its
bytes. -/
theorem decodes_of_record {i : Instr} {op : BitVec 8} {n N : Nat} {R : Type} {read : Buffer → Option R}
    {bits : R → BitVec N} (hop : encode i = op) (hexec : ∀ s, exec i s = decodeOp n (fun b => (read b).map bits) s)
    (hsome : ∀ b : Buffer, n ≤ b.len → ∃ x, read b = some x)
    (hbytes : ∀ (b : Buffer) (x : R), read b = some x → ∀ a, a < n → (bits x).extractLsb' (8 * a) 8 = b.byte (0 + a)) :
    Decodes i op n N :=
  decodes_of_decodeOp hop hexec fun b hlen => by
    obtain ⟨x, hx⟩ := hsome b hlen
    exact ⟨bits x, by rw [hx]; rfl, fun a ha => by simpa using hbytes b x hx a ha⟩

/-- An encode that writes at offset 0 the record of the wide port's low bits: the write answers on every long enough buffer
and writes the record's bytes. -/
theorem encodes_of_record {i : Instr} {op : BitVec 8} {n N : Nat} {R : Type} {write : Buffer → R → Option Buffer}
    {bits : R → BitVec N} {ofBits : BitVec N → R} (hn : 0 < n) (hop : encode i = op)
    (hexec : ∀ s, exec i s = encodeOp n (fun b => write b (ofBits (s.req.w.setWidth N))) s)
    (hbits : ∀ v, bits (ofBits v) = v) (hsome : ∀ (b : Buffer) (x : R), n ≤ b.len → ∃ c, write b x = some c)
    (hwrote : ∀ (b c : Buffer) (x : R), write b x = some c → b.Wrote c 0 n fun a => (bits x).extractLsb' (8 * a) 8) :
    Encodes i op n N :=
  encodes_of_encodeOp (write := fun v b => write b (ofBits v)) hn hop hexec fun v b hlen => by
    obtain ⟨c, hc⟩ := hsome b (ofBits v) hlen
    exact ⟨c, hc, by simpa only [hbits] using hwrote b c _ hc⟩

/-- Settles O25: the U128 and the U256 read at offset 0 have the buffer's bytes. -/
theorem narrowDecodes : Obligations.NarrowDecodes :=
  ⟨decodes_of_record (read := fun b => b.readU128 0) rfl (fun _ => rfl)
      (fun _ hlen => Buffer.readU128_isSome (by omega)) fun _ _ => Buffer.readU128_bytes,
    decodes_of_record (read := fun b => b.readU256 0) rfl (fun _ => rfl)
      (fun _ hlen => Buffer.readU256_isSome (by omega)) fun _ _ => Buffer.readU256_bytes⟩

/-- Settles O26: the U128 and the U256 written at offset 0 have the wide port's low bits. -/
theorem narrowEncodes : Obligations.NarrowEncodes :=
  ⟨encodes_of_record (write := fun b x => b.writeU128 0 x) (by decide) rfl (fun _ => rfl) U128.bits_ofBits
      (fun _ x hlen => Buffer.writeU128_isSome x (by omega)) fun _ _ _ => Buffer.writeU128_wrote,
    encodes_of_record (write := fun b x => b.writeU256 0 x) (by decide) rfl (fun _ => rfl) U256.bits_ofBits
      (fun _ x hlen => Buffer.writeU256_isSome x (by omega)) fun _ _ _ => Buffer.writeU256_wrote⟩

/-- Settles O31: both round-trip laws hold of any encode and decode of one width, so of the two narrow ones. -/
theorem narrowCodecsRoundTrip : Obligations.NarrowCodecsRoundTrip := by
  obtain ⟨dec128, dec256⟩ := narrowDecodes
  obtain ⟨enc128, enc256⟩ := narrowEncodes
  exact ⟨fun _ hw hlen => Encodes.decode_returns (n := 16) enc128 dec128 hw hlen,
    fun _ hlen => dec128.encode_reproduces enc128 (by decide) hlen,
    fun _ hw hlen => Encodes.decode_returns (n := 32) enc256 dec256 hw hlen,
    fun _ hlen => dec256.encode_reproduces enc256 (by decide) hlen⟩

/-! The image of a record is its low half's image followed by its high half's (R136). -/

/-- A byte of an image written at offset 0. -/
theorem byte_of_wrote {b b' : Buffer} {n i : Nat} {img : Nat → Byte} (h : b.Wrote b' 0 n img) (hi : i < n) :
    b'.byte i = img i := by
  rw [h.byte, if_pos (by omega), Nat.sub_zero]

/-- The image of a concatenation of two equal parts, wherever it and the parts were written. -/
theorem image_append {b b' c c' d d' : Buffer} {n : Nat} {high low : BitVec (8 * n)}
    (hb : b.Wrote b' 0 (n + n) fun i => (high ++ low).extractLsb' (8 * i) 8)
    (hc : c.Wrote c' 0 n fun i => low.extractLsb' (8 * i) 8) (hd : d.Wrote d' 0 n fun i => high.extractLsb' (8 * i) 8)
    {i : Nat} (hi : i < n) : b'.byte i = c'.byte i ∧ b'.byte (n + i) = d'.byte i := by
  constructor
  · rw [byte_of_wrote hb (by omega), byte_of_wrote hc hi, extract_byte_append, if_pos hi]
  · rw [byte_of_wrote hb (by omega), byte_of_wrote hd hi, extract_byte_append, if_neg (by omega), Nat.add_sub_cancel_left]

/-- Settles O34: a record's bits are its High's above its Low's, so its image is that of a concatenation. -/
theorem imagesNestLowThenHigh : Obligations.ImagesNestLowThenHigh :=
  ⟨fun _ _ _ _ _ _ _ hb hc hd _ hi => image_append (n := 32) (Buffer.writeU512_wrote hb) (Buffer.writeU256_wrote hc)
      (Buffer.writeU256_wrote hd) hi,
    fun _ _ _ _ _ _ _ hb hc hd _ hi => image_append (n := 16) (Buffer.writeU256_wrote hb) (Buffer.writeU128_wrote hc)
      (Buffer.writeU128_wrote hd) hi⟩

end Sys2Proof
end

section
/-! Exceptions (60_exceptions.md): the status of a response (R143), the only fault (R141, R142), the error that leaves nothing
behind (R146), and the units' independence of each other's order (R154). -/

namespace Sys2Proof.Machine

/-- Settles O9: the idle case of a step. -/
theorem runOverIsIdle : Obligations.RunOverIsIdle := fun _ => step_idle

/-! The status of a response (R143). -/

/-- A response reports the error exactly where the buffer is short of the operation's bytes. -/
theorem exec_status_eq_bufShort_iff {i : Instr} {s t : State} (h : exec i s = .next t) :
    t.resp.status = .bufShort ↔ s.reqBuffer.len < codecBytes i := by
  rcases exec_cases i s with ⟨-, hlen, v, e⟩ | ⟨-, hnone, v, e⟩ | ⟨hshort, -, e⟩ | ⟨-, -, hlen, b, img, -, e⟩ |
    ⟨-, -, e⟩ <;> cases h.symm.trans e
  · exact ⟨nofun, fun hshort => by omega⟩
  · exact ⟨nofun, fun hshort => by omega⟩
  · exact ⟨fun _ => hshort, fun _ => rfl⟩
  · exact ⟨nofun, fun hshort => by omega⟩

theorem statusCode_cases (st : Status) : statusCode st = 0#2 ∨ statusCode st = 1#2 := by
  cases st with
  | ok => exact .inl rfl
  | bufShort => exact .inr rfl

/-- Settles O28: the status by the cases of an operation, the lengths operation by operation. -/
theorem statusReportsTheErrorExactly : Obligations.StatusReportsTheErrorExactly :=
  ⟨fun _ _ _ => exec_status_eq_bufShort_iff, fun i => by cases i <;> rfl, rfl, rfl, statusCode_cases⟩

/-! What faults (R30, R141). -/

theorem exec_ne_fault (i : Instr) (s : State) (f : Fault) : exec i s ≠ .fault f := by
  rcases exec_cases i s with ⟨-, -, v, e⟩ | ⟨-, -, v, e⟩ | ⟨-, -, e⟩ | ⟨-, -, -, b, img, -, e⟩ | ⟨-, -, e⟩ <;>
    rw [e] <;> nofun

theorem andThen_fault {o : Host.Outcome State Fault Refusal} {g : State → Host.Outcome State Fault Refusal} {f : Fault}
    (h : andThen o g = .fault f) : o = .fault f ∨ ∃ u, o = .next u ∧ g u = .fault f := by
  cases o with
  | next u => exact .inr ⟨u, rfl, h⟩
  | fault r => exact .inl h
  | refused r => cases h

theorem answer_ne_fault (unit : Nat) (s : State) (f : Fault) : answer unit s ≠ .fault f := by
  intro h
  unfold answer at h
  split at h
  · cases h
  · split at h
    · cases h
    · rcases andThen_fault h with hexec | ⟨u, -, hcollect⟩
      · exact exec_ne_fault _ _ f hexec
      · cases hcollect

theorem issue_ne_fault (unit : Nat) (q : Request) (s : State) (f : Fault) : issue unit q s ≠ .fault f := by
  unfold issue
  dsimp only
  split_ifs
  · nofun
  · split
    · nofun
    · split
      · nofun
      · split_ifs <;> nofun
  · nofun

/-- A host store faults only at an offset its buffer does not have, which the fault names. -/
theorem hostStore_fault {buf off : Nat} {v : Byte} {s : State} {f : Fault} (h : hostStore buf off v s = .fault f) :
    (s.buffer buf).len ≤ off ∧ f = .outsideBuffer off := by
  unfold hostStore Buffer.store at h
  split_ifs at h with hrace hmark hoff
  · cases h; exact ⟨Nat.not_lt.1 hoff, rfl⟩

/-- Of the host's moves only a store can fault. -/
theorem perform_fault {m : HostMove} {s : State} {f : Fault} (h : perform m s = .fault f) :
    ∃ buf off v, m = .store buf off v ∧ (s.buffer buf).len ≤ off ∧ f = .outsideBuffer off := by
  cases m with
  | issue unit q => exact absurd h (issue_ne_fault unit q s f)
  | answer unit => exact absurd h (answer_ne_fault unit s f)
  | transact unit q =>
    rcases andThen_fault h with hissue | ⟨u, -, hanswer⟩
    · exact absurd hissue (issue_ne_fault unit q s f)
    · exact absurd hanswer (answer_ne_fault unit u f)
  | store buf off v => exact ⟨buf, off, v, rfl, hostStore_fault h⟩
  | copy dst src => change hostCopy dst src s = _ at h; unfold hostCopy at h; split at h <;> cases h
  | addBuffer w bytes => change hostAddBuffer w bytes s = _ at h; unfold hostAddBuffer at h; split at h <;> cases h
  | reset => change hostReset s = _ at h; unfold hostReset at h; split at h <;> cases h

/-- Settles O44: an answer never faults, and of the moves only a store does. -/
theorem onlyAHostStoreFaults : Obligations.OnlyAHostStoreFaults := by
  intro s f h
  rcases step_cases s with ⟨-, -, e⟩ | ⟨-, p, ps, -, e⟩ | ⟨m, rest, hs, e⟩ <;> rw [e] at h
  · cases h
  · exact absurd h (answer_ne_fault p.unit s f)
  · obtain ⟨buf, off, v, rfl, hlen, hf⟩ := perform_fault h
    exact ⟨buf, off, v, rest, hs, hlen, hf⟩

/-! One operation in two states: what it sees of a state, and what it does to it. -/

/-- Two states look the same to an operation: the same ports, a buffer of the same length and mark, and the same buffer
where the operation reaches into it. -/
structure State.SeesSame (i : Instr) (s t : State) : Prop where
  req : t.req = s.req
  len : t.reqBuffer.len = s.reqBuffer.len
  writable : t.reqBuffer.writable = s.reqBuffer.writable
  reached : 0 < codecBytes i → codecBytes i ≤ s.reqBuffer.len → t.reqBuffer = s.reqBuffer

/-- An operation took `s` to `s'` and `t` to `t'` with one response, and with one buffer written in both or in neither. -/
structure State.SameEffect (i : Instr) (s s' t t' : State) : Prop where
  status : t'.resp.status = s'.resp.status
  result : s'.resp.status = .ok → (resultType i).isSome = true → t'.resp.r = s'.resp.r
  buffers : (s'.buffers = s.buffers ∧ t'.buffers = t.buffers) ∨
    isEncode i = true ∧ codecBytes i ≤ s.reqBuffer.len ∧
      ∃ b, s'.buffers = s.buffers.set s.req.buf b ∧ t'.buffers = t.buffers.set s.req.buf b

theorem State.SeesSame.of_req_buffers {i : Instr} {s t : State} (hreq : t.req = s.req) (hbuf : t.buffers = s.buffers) :
    State.SeesSame i s t := by
  have h : t.reqBuffer = s.reqBuffer := by unfold State.reqBuffer State.buffer; rw [hreq, hbuf]
  exact ⟨hreq, by rw [h], by rw [h], fun _ _ => h⟩

theorem State.SameEffect.typedValue_eq {i : Instr} {s s' t t' : State} (h : State.SameEffect i s s' t t') :
    typedValue i t'.resp = typedValue i s'.resp := by
  rw [← State.responseValue_eq_typedValue, ← State.responseValue_eq_typedValue]
  unfold State.responseValue
  rw [h.status]
  cases hst : s'.resp.status with
  | bufShort => rfl
  | ok =>
    cases hT : resultType i with
    | none => rfl
    | some T => simp [h.result hst (by simp [hT])]

/-- An operation on no buffer gives one response for the same ports. -/
theorem exec_of_codecBytes_eq_zero {i : Instr} {s t : State} (h : codecBytes i = 0) (hreq : t.req = s.req) :
    ∃ r, exec i s = .next { s with resp := { status := .ok, r := r } } ∧
      exec i t = .next { t with resp := { status := .ok, r := r } } := by
  cases s
  cases t
  cases hreq
  cases i with
  | dec512 | enc512 | dec128 | enc128 | dec256 | enc256 => cases h
  | _ => exact ⟨_, rfl, rfl⟩

theorem resultType_of_isEncode {i : Instr} (h : isEncode i = true) : resultType i = none := by
  cases i with
  | enc512 | enc128 | enc256 => rfl
  | _ => cases h

/-- A decode reads the same value where it sees the same. -/
theorem exec_sameEffect_of_decodeOp {i : Instr} {N : Nat} {read : Buffer → Option (BitVec N)} {s s' t : State}
    (hexec : ∀ x, exec i x = decodeOp (codecBytes i) read x) (hpos : 0 < codecBytes i) (hsees : State.SeesSame i s t)
    (h : exec i s = .next s') : ∃ t', exec i t = .next t' ∧ State.SameEffect i s s' t t' := by
  rw [hexec, decodeOp, tooShort] at h
  rw [hexec, decodeOp, tooShort, hsees.len]
  by_cases hshort : s.reqBuffer.len < codecBytes i
  · rw [if_pos (decide_eq_true hshort)] at h ⊢
    cases h
    exact ⟨_, rfl, rfl, nofun, .inl ⟨rfl, rfl⟩⟩
  · rw [if_neg (by simpa using hshort)] at h ⊢
    rw [hsees.reached hpos (Nat.not_lt.1 hshort)]
    cases hread : read s.reqBuffer with
    | none => simp [hread] at h
    | some v =>
      rw [hread] at h
      cases h
      exact ⟨_, rfl, rfl, fun _ _ => rfl, .inl ⟨rfl, rfl⟩⟩

/-- An encode writes the same buffer where it sees the same. -/
theorem exec_sameEffect_of_encodeOp {i : Instr} {write : BitVec 512 → Buffer → Option Buffer} {s s' t : State}
    (hexec : ∀ x, exec i x = encodeOp (codecBytes i) (write x.req.w) x) (hpos : 0 < codecBytes i)
    (hi : isEncode i = true) (hsees : State.SeesSame i s t) (h : exec i s = .next s') :
    ∃ t', exec i t = .next t' ∧ State.SameEffect i s s' t t' := by
  rw [hexec, encodeOp, tooShort] at h
  rw [hexec, encodeOp, tooShort, hsees.len, hsees.writable, hsees.req]
  by_cases hmark : s.reqBuffer.writable = true
  · rw [if_pos hmark] at h ⊢
    by_cases hshort : s.reqBuffer.len < codecBytes i
    · rw [if_pos (decide_eq_true hshort)] at h ⊢
      cases h
      exact ⟨_, rfl, rfl, nofun, .inl ⟨rfl, rfl⟩⟩
    · rw [if_neg (by simpa using hshort)] at h ⊢
      rw [hsees.reached hpos (Nat.not_lt.1 hshort)]
      cases hwrite : write s.req.w s.reqBuffer with
      | none => simp [hwrite] at h
      | some b =>
        rw [hwrite] at h
        cases h
        exact ⟨_, rfl, rfl, fun _ hsome => by simp [resultType_of_isEncode hi] at hsome,
          .inr ⟨hi, Nat.not_lt.1 hshort, b, rfl, rfl⟩⟩
  · rw [if_neg hmark] at h
    cases h

/-- An operation does the same to two states that look the same to it (R10: the unit holds nothing). -/
theorem exec_sameEffect {i : Instr} {s s' t : State} (hsees : State.SeesSame i s t) (h : exec i s = .next s') :
    ∃ t', exec i t = .next t' ∧ State.SameEffect i s s' t t' := by
  rcases Nat.eq_zero_or_pos (codecBytes i) with hnone | hpos
  · obtain ⟨r, es, et⟩ := exec_of_codecBytes_eq_zero hnone hsees.req
    cases h.symm.trans es
    exact ⟨_, et, rfl, fun _ _ => rfl, .inl ⟨rfl, rfl⟩⟩
  · cases i with
    | dec512 =>
      exact exec_sameEffect_of_decodeOp (read := fun b => (b.readU512 0).map U512.bits) (fun _ => rfl) hpos hsees h
    | dec256 =>
      exact exec_sameEffect_of_decodeOp (read := fun b => (b.readU256 0).map U256.bits) (fun _ => rfl) hpos hsees h
    | dec128 =>
      exact exec_sameEffect_of_decodeOp (read := fun b => (b.readU128 0).map U128.bits) (fun _ => rfl) hpos hsees h
    | enc512 =>
      exact exec_sameEffect_of_encodeOp (write := fun w b => b.writeU512 0 (U512.ofBits w)) (fun _ => rfl) hpos rfl hsees h
    | enc256 =>
      exact exec_sameEffect_of_encodeOp (write := fun w b => b.writeU256 0 (U256.ofBits (w.setWidth 256))) (fun _ => rfl)
        hpos rfl hsees h
    | enc128 =>
      exact exec_sameEffect_of_encodeOp (write := fun w b => b.writeU128 0 (U128.ofBits (w.setWidth 128))) (fun _ => rfl)
        hpos rfl hsees h
    | _ => exact absurd hpos (by decide)

/-- Settles O45: the failed operation changed nothing the next one sees, so the next has the same effect. -/
theorem theErrorIsNotSticky : Obligations.TheErrorIsNotSticky := by
  intro i j s t s' q h hst hj
  have hframe : t = { s with resp := t.resp, freeCount := t.freeCount } := by
    rcases exec_next h with e | ⟨-, hlen, -⟩
    · exact e
    · have hshort := (exec_status_eq_bufShort_iff h).1 hst
      omega
  have hbuffers : t.buffers = s.buffers := by rw [hframe]
  have hsees : State.SeesSame j { s with req := q } { t with req := q } := .of_req_buffers rfl hbuffers
  obtain ⟨t', e, hsame⟩ := exec_sameEffect hsees hj
  refine ⟨hframe, t', e, ?_, hsame.status, hsame.result⟩
  rcases hsame.buffers with ⟨es, et⟩ | ⟨-, -, b, es, et⟩
  · exact et.trans (hbuffers.trans es.symm)
  · exact et.trans ((congrArg (List.set · q.buf b) hbuffers).trans es.symm)

/-! Two answers in either order (R154). -/

theorem codecBytes_pos_of_isEncode {i : Instr} (h : isEncode i = true) : 0 < codecBytes i := by
  cases i with
  | enc512 | enc128 | enc256 => decide
  | _ => cases h

theorem State.conflict_comm (s : State) (p q : Pending) : s.conflict p q = s.conflict q p := by
  unfold State.conflict
  rw [Bool.and_right_comm (p.ports.buf == q.ports.buf), Bool.beq_comm, Bool.or_comm]

/-- Of the transactions in progress of a lawful state no two conflict. -/
theorem State.Inv.conflict_eq_false {s : State} {p q : Pending} (h : s.Inv) (hp : p ∈ s.inFlight) (hq : q ∈ s.inFlight)
    (hne : p ≠ q) : s.conflict p q = false :=
  have : Std.Symm fun x y => s.conflict x y = false := ⟨fun x y hxy => (s.conflict_comm y x).trans hxy⟩
  h.disjoint.forall hp hq hne

/-- Taking one unit's transactions off leaves another unit's where they were. -/
theorem find_filter_unit_ne (l : List Pending) {u v : Nat} (h : u ≠ v) :
    (l.filter fun x => x.unit != u).find? (fun x => x.unit == v) = l.find? fun x => x.unit == v := by
  rw [List.find?_filter]
  refine congrArg (l.find? ·) (funext fun x => ?_)
  by_cases hx : x.unit = v <;> simp [hx, h.symm]

theorem answer_next_of_find {unit : Nat} {s t : State} {p : Pending}
    (hp : s.inFlight.find? (fun x => x.unit == unit) = some p) (h : answer unit s = .next t) :
    ∃ i u, decode s.build.narrowCodecs p.ports.op = .ok i ∧ exec i (s.present p) = .next u ∧ t = u.collect i p := by
  obtain ⟨x, i, u, hx, hi, hexec, ht⟩ := answer_next h
  cases hp.symm.trans hx
  exact ⟨i, u, hi, hexec, ht⟩

theorem answer_eq_collect {unit : Nat} {s u : State} {p : Pending} {i : Instr}
    (hp : s.inFlight.find? (fun x => x.unit == unit) = some p) (hi : decode s.build.narrowCodecs p.ports.op = .ok i)
    (hexec : exec i (s.present p) = .next u) : answer unit s = .next (u.collect i p) := by
  rw [answer_eq hp hi, hexec]
  rfl

theorem inFlight_of_exec_present {i : Instr} {s t : State} {p : Pending} (h : exec i (s.present p) = .next t) :
    t.inFlight = s.inFlight.filter fun x => x.unit != p.unit :=
  (exec_keeps h).2.1

theorem handsOver_of_exec_present {i : Instr} {s t : State} {p : Pending} (h : exec i (s.present p) = .next t) :
    HandsOver s (t.collect i p) i p.unit p.dst :=
  handsOver_collect (s := s.present p) h rfl

/-- After one unit's answer another unit's request is still the one outstanding. -/
theorem find_collect_of_unit_ne {i : Instr} {s t : State} {p : Pending} {q : Option Pending} {v : Nat}
    (h : exec i (s.present p) = .next t) (hne : p.unit ≠ v) (hq : s.inFlight.find? (fun x => x.unit == v) = q) :
    (t.collect i p).inFlight.find? (fun x => x.unit == v) = q := by
  rw [State.collect_inFlight, inFlight_of_exec_present h, find_filter_unit_ne _ hne, hq]

theorem State.SeesSame.symm {i : Instr} {s t : State} (h : State.SeesSame i s t) : State.SeesSame i t s :=
  ⟨h.req.symm, h.len.symm, h.writable.symm, fun hpos hlen => (h.reached hpos (h.len ▸ hlen)).symm⟩

/-- An encode and a codec that reach into their buffers without a conflict have different buffers (R42). -/
theorem State.buf_ne_of_conflict_eq_false {s : State} {p q : Pending} {i j : Instr} (hc : s.conflict p q = false)
    (hi : decode s.build.narrowCodecs p.ports.op = .ok i) (hj : decode s.build.narrowCodecs q.ports.op = .ok j)
    (henc : isEncode i = true) (hpos : 0 < codecBytes j) (hleni : codecBytes i ≤ (s.buffer p.ports.buf).len)
    (hlenj : codecBytes j ≤ (s.buffer q.ports.buf).len) : q.ports.buf ≠ p.ports.buf := fun hbuf => by
  have hclash : s.conflict p q = true :=
    State.conflict_of_overlap hbuf.symm hi hj hpos (codecBytes_pos_of_isEncode henc) hlenj (hbuf ▸ hleni) (.inr henc)
  exact absurd (hc.symm.trans hclash) nofun

/-- A transaction without a conflict leaves the other's operation seeing what it saw before. -/
theorem State.SeesSame.of_conflict_eq_false {s t : State} {p q : Pending} {i j : Instr} (hc : s.conflict p q = false)
    (hi : decode s.build.narrowCodecs p.ports.op = .ok i) (hj : decode s.build.narrowCodecs q.ports.op = .ok j)
    (h : exec i (s.present p) = .next t) : State.SeesSame j (s.present q) ((t.collect i p).present q) := by
  obtain ⟨-, -, -, hmarks, -⟩ := exec_keeps h
  refine ⟨rfl, (hmarks q.ports.buf).1, (hmarks q.ports.buf).2, fun hpos hlenj => ?_⟩
  change t.buffer q.ports.buf = s.buffer q.ports.buf
  rcases exec_next h with e | ⟨henc, hleni, -⟩
  · exact State.buffer_congr (by rw [e]; rfl) _
  · exact exec_buffer_of_ne h (State.buf_ne_of_conflict_eq_false hc hi hj henc hpos hleni hlenj)

/-- Two effects in either order leave the same buffers, where they do not both write one buffer. -/
theorem State.SameEffect.buffers_comm {sp sq a aq ab b bp ba : State} {i j : Instr}
    (hp : State.SameEffect i sp a bp ba) (hq : State.SameEffect j aq ab sq b) (hs : sq.buffers = sp.buffers)
    (ha : aq.buffers = a.buffers) (hb : bp.buffers = b.buffers)
    (hne : isEncode i = true → isEncode j = true → codecBytes i ≤ sp.reqBuffer.len → codecBytes j ≤ aq.reqBuffer.len →
      aq.req.buf ≠ sp.req.buf) : ba.buffers = ab.buffers := by
  rcases hp.buffers with ⟨ea, eba⟩ | ⟨hi, hleni, x, ea, eba⟩ <;>
    rcases hq.buffers with ⟨eab, eb⟩ | ⟨hj, hlenj, y, eab, eb⟩ <;>
    rw [eba, hb, eb, hs, eab, ha, ea]
  exact List.set_comm _ _ (hne hi hj hleni hlenj)

/-- Two responses handed over in either order leave the same values, and are the same two responses. -/
theorem handsOver_swap {s a ab b ba : State} {i j : Instr} {u v : Nat} {d e : Option Nat} (ha : HandsOver s a i u d)
    (hab : HandsOver a ab j v e) (hb : HandsOver s b j v e) (hba : HandsOver b ba i u d)
    (hi : ba.resp.status = a.resp.status) (hi' : typedValue i ba.resp = typedValue i a.resp)
    (hj : b.resp.status = ab.resp.status) (hj' : typedValue j b.resp = typedValue j ab.resp) (hde : d = none ∨ d ≠ e) :
    (∀ n, ba.value? n = ab.value? n) ∧
      ∃ x y : Response, ab.responses = s.responses ++ [x, y] ∧ ba.responses = s.responses ++ [y, x] := by
  refine ⟨fun n => ?_, ⟨u, a.resp.status, typedValue i a.resp⟩, ⟨v, ab.resp.status, typedValue j ab.resp⟩, ?_, ?_⟩
  · rw [hba.2, hb.2, hab.2, ha.2, hi', hj']
    by_cases hd : d = some n
    · have he : e ≠ some n := by
        rcases hde with h | h
        · exact absurd (h.symm.trans hd) nofun
        · exact fun he => h (hd.trans he.symm)
      simp [hd, he]
    · simp [hd]
  · rw [hab.1, ha.1]; simp
  · rw [hba.1, hb.1, hi, hi', hj, hj']; simp

/-- Settles O8: without a conflict neither operation changes what the other sees, so each has the same effect in both
orders; the two effects write different buffers, and the two responses are handed over in turn. -/
theorem answersInEitherOrderAgree : Obligations.AnswersInEitherOrderAgree := by
  intro s a ab u v p q hinv huv hp hq hdst ha hab
  obtain rfl : p.unit = u := by simpa using List.find?_some hp
  obtain rfl : q.unit = v := by simpa using List.find?_some hq
  have hc : s.conflict p q = false :=
    hinv.conflict_eq_false (List.mem_of_find?_eq_some hp) (List.mem_of_find?_eq_some hq) fun h => huv (congrArg _ h)
  -- The order given: `p` takes `s` to `s₁`, then `q` to `s₁₂`.
  obtain ⟨i, s₁, hi, hexec₁, rfl⟩ := answer_next_of_find hp ha
  obtain ⟨j, s₁₂, hj, hexec₁₂, rfl⟩ := answer_next_of_find (find_collect_of_unit_ne hexec₁ huv hq) hab
  rw [answer_build ha] at hj
  -- The other order: `q` takes `s` to `s₂`, then `p` to `s₂₁`.
  have hsees_q := State.SeesSame.of_conflict_eq_false hc hi hj hexec₁
  obtain ⟨s₂, hexec₂, hsame_q⟩ := exec_sameEffect hsees_q.symm hexec₁₂
  have hb := answer_eq_collect hq hj hexec₂
  have hsees_p := State.SeesSame.of_conflict_eq_false ((s.conflict_comm q p).trans hc) hj hi hexec₂
  obtain ⟨s₂₁, hexec₂₁, hsame_p⟩ := exec_sameEffect hsees_p hexec₁
  have hba := answer_eq_collect (find_collect_of_unit_ne hexec₂ huv.symm hp) (by rw [answer_build hb, hi]) hexec₂₁
  have hbuffers : s₂₁.buffers = s₁₂.buffers :=
    hsame_p.buffers_comm hsame_q rfl rfl rfl fun henc henc' hleni hlenj =>
      State.buf_ne_of_conflict_eq_false hc hi hj henc (codecBytes_pos_of_isEncode henc') hleni (hsees_q.len ▸ hlenj)
  refine ⟨_, _, hb, hba, hbuffers, ?_, ?_⟩
  · simp only [State.collect_inFlight, inFlight_of_exec_present hexec₂₁, inFlight_of_exec_present hexec₂,
      inFlight_of_exec_present hexec₁₂, inFlight_of_exec_present hexec₁]
    exact List.filter_comm ..
  · exact handsOver_swap (handsOver_of_exec_present hexec₁) (handsOver_of_exec_present hexec₁₂)
      (handsOver_of_exec_present hexec₂) (handsOver_of_exec_present hexec₂₁)
      hsame_p.status hsame_p.typedValue_eq hsame_q.status hsame_q.typedValue_eq hdst

end Sys2Proof.Machine
end

section
/-! Reset, liveness and the host's moves (70_reset_and_hazards.md): every operation ends (R166), a reset touches only the ports
(R160 to R162), what the host may do between its requests (R168), and that every run answers its requests and ends (R171). -/

namespace Sys2Proof.Machine

/-- Settles O43: of the cases of an operation, only the read-only encode gives no next state. -/
theorem everyOperationEnds : Obligations.EveryOperationEnds := by
  intro i s hmark
  rcases exec_cases i s with ⟨-, -, v, e⟩ | ⟨-, -, v, e⟩ | ⟨-, -, e⟩ | ⟨-, -, -, b, img, -, e⟩ | ⟨he, hw, -⟩
  · exact ⟨_, e⟩
  · exact ⟨_, e⟩
  · exact ⟨_, e⟩
  · exact ⟨_, e⟩
  · exact absurd (hmark he) (by simp [hw])

/-! A reset as the host's move (R160, R161). -/

/-- Between transactions a reset draws the response ports anew and changes nothing else. -/
theorem hostReset_of_idle {s : State} (h : s.inFlight = []) :
    ∃ ports, hostReset s = .next { s with resp := ports, freeCount := s.freeCount + 1 } := by
  simp only [hostReset, h]
  exact ⟨_, rfl⟩

theorem hostReset_of_inFlight {s : State} (h : s.inFlight ≠ []) : hostReset s = .refused .resetInFlight := by
  obtain ⟨p, ps, hf⟩ := List.exists_cons_of_ne_nil h
  simp only [hostReset, hf]

/-- Settles O50: the step is the reset, on an idle machine or in mid-transaction. -/
theorem resetBetweenTransactionsChangesOnlyThePorts : Obligations.ResetBetweenTransactionsChangesOnlyThePorts := by
  intro s rest hs
  rw [step_cons hs]
  exact ⟨fun hf => hostReset_of_idle (s := { s with script := rest }) hf,
    fun hf => hostReset_of_inFlight (s := { s with script := rest }) hf⟩

/-! The host's own moves on its buffers and values (R168). -/

/-- A store at an offset the buffer has, into a buffer the host may write and no codec in progress uses. -/
theorem hostStore_eq_next {s : State} {buf off : Nat} (v : Byte) (hfree : ∀ x ∈ s.inFlight, s.uses x buf = false)
    (hw : (s.buffer buf).writable = true) (hoff : off < (s.buffer buf).len) :
    ∃ b, (s.buffer buf).store off v = some b ∧ hostStore buf off v s = .next (s.setBuffer buf b) := by
  have hany : (s.inFlight.any fun p => s.uses p buf) = false := by simpa [List.any_eq_false] using hfree
  have hstore : (s.buffer buf).store off v = some { s.buffer buf with cells := Memory.write (s.buffer buf).cells off v } :=
    if_pos hoff
  exact ⟨_, hstore, by simp [hostStore, hany, hw, hstore]⟩

/-- What the buffers are after a byte store into one of them: their lengths and marks, and that one byte changed. -/
theorem buffer_setBuffer_of_store {s : State} {buf off : Nat} {v : Byte} {b : Buffer}
    (h : (s.buffer buf).store off v = some b) :
    (∀ k, ((s.setBuffer buf b).buffer k).len = (s.buffer k).len ∧
      ((s.setBuffer buf b).buffer k).writable = (s.buffer k).writable) ∧
      ∀ k a, ((s.setBuffer buf b).buffer k).byte a = if k = buf ∧ a = off then v else (s.buffer k).byte a := by
  obtain ⟨hoff, hlen, hmark, hbyte, -⟩ := Buffer.store_some h
  have hsame : (s.setBuffer buf b).buffer buf = b :=
    (State.buffer_setBuffer s buf buf b).trans (if_pos ⟨rfl, State.lt_length_of_buffer (by omega)⟩)
  have hother : ∀ k, k ≠ buf → (s.setBuffer buf b).buffer k = s.buffer k := fun k hk =>
    (State.buffer_setBuffer s buf k b).trans (if_neg fun hs => hk hs.1.symm)
  refine ⟨fun k => ?_, fun k a => ?_⟩ <;> by_cases hk : k = buf
  · rw [hk, hsame]
    exact ⟨hlen, hmark⟩
  · rw [hother k hk]
    exact ⟨rfl, rfl⟩
  · simp only [hk, hsame, hbyte, true_and, eq_comm (a := off)]
  · simp only [hk, hother k hk, false_and, if_false]

theorem hostCopy_eq_next {s : State} {src : Nat} {v : WideValue} (dst : Nat) (h : s.value? src = some v) :
    hostCopy dst src s = .next { s with values := putValue s.values dst v } := by
  simp [hostCopy, h]

/-- A value put under a name is the one held there, and every other name keeps its own. -/
theorem value?_putValue (s : State) (dst n : Nat) (v : WideValue) :
    State.value? { s with values := putValue s.values dst v } n = if n = dst then some v else s.value? n := by
  simp only [State.value?, find_putValue, eq_comm (a := dst)]
  split <;> rfl

theorem hostAddBuffer_eq_next {s : State} (w : Bool) (bytes : List Byte)
    (hfree : ∀ x ∈ s.inFlight, s.uses x s.buffers.length = false) :
    hostAddBuffer w bytes s = .next { s with buffers := s.buffers ++ [Buffer.ofBytes w bytes] } := by
  have hany : (s.inFlight.any fun p => s.uses p s.buffers.length) = false := by simpa [List.any_eq_false] using hfree
  simp [hostAddBuffer, hany]

/-- A further buffer has the next number; below it are the old ones, and above it there is none, as before. -/
theorem buffer_append (s : State) (b : Buffer) (k : Nat) :
    State.buffer { s with buffers := s.buffers ++ [b] } k = if k = s.buffers.length then b else s.buffer k := by
  unfold State.buffer
  rcases Nat.lt_trichotomy k s.buffers.length with hlt | rfl | hgt
  · rw [if_neg hlt.ne, List.getD_append _ _ _ _ hlt]
  · simp
  · rw [if_neg hgt.ne', List.getD_eq_default _ _ hgt.le, List.getD_eq_default _ _ (by simpa using hgt)]

/-- Settles O51: each move completes, and its one effect is the byte stored, the value put, or the buffer appended. -/
theorem hostMovesDoWhatTheHostMayDo : Obligations.HostMovesDoWhatTheHostMayDo := by
  refine ⟨fun s buf off v hfree hw hoff => ?_, fun s dst src v hv => ?_, fun s w bytes hfree => ?_⟩
  · obtain ⟨b, hstore, e⟩ := hostStore_eq_next v hfree hw hoff
    exact ⟨_, e, rfl, buffer_setBuffer_of_store hstore⟩
  · exact ⟨_, hostCopy_eq_next dst hv, rfl, fun n => value?_putValue s dst n v⟩
  · obtain ⟨hlen, hmark, hbyte, -⟩ := Buffer.ofBytes_spec w bytes
    have hnew := (buffer_append s (Buffer.ofBytes w bytes) s.buffers.length).trans (if_pos rfl)
    refine ⟨_, hostAddBuffer_eq_next w bytes hfree, rfl, fun k hk => (buffer_append s _ k).trans (if_neg hk), ?_⟩
    rw [hnew]
    exact ⟨hlen, hmark, hbyte⟩

/-! Every outstanding request is answered (R166, R171). -/

/-- With no move left, every request in progress can be answered: one per unit, each of an operation that exists, and no
encode of a buffer the host may not write. Weaker than the invariant (R42 plays no part), and kept by an answer. -/
structure State.Answerable (s : State) : Prop where
  script : s.script = []
  onePer : s.inFlight.Pairwise (fun p q => p.unit ≠ q.unit)
  served : ∀ p ∈ s.inFlight, ∃ i, decode s.build.narrowCodecs p.ports.op = .ok i ∧
    (isEncode i = true → (s.buffer p.ports.buf).writable = true)

/-- A transaction of an operation that exists is one whose word decodes. -/
theorem State.decode_of_pendingInstr_isSome {s : State} {p : Pending} (h : (s.pendingInstr p).isSome = true) :
    ∃ i, decode s.build.narrowCodecs p.ports.op = .ok i := by
  unfold State.pendingInstr at h
  split at h
  · next i hi => exact ⟨i, hi⟩
  · cases h

theorem State.Inv.answerable {s : State} (h : s.Inv) (hs : s.script = [])
    (hmark : ∀ p ∈ s.inFlight, ∀ i, decode s.build.narrowCodecs p.ports.op = .ok i → isEncode i = true →
      (s.buffer p.ports.buf).writable = true) : s.Answerable where
  script := hs
  onePer := h.onePer
  served p hp := (State.decode_of_pendingInstr_isSome (h.legal p hp)).imp fun i hi => ⟨hi, hmark p hp i hi⟩

/-- An answer gives one response, keeps the script, and takes the unit's requests off those in progress. -/
theorem answer_effect {unit : Nat} {s t : State} (h : answer unit s = .next t) :
    t.script = s.script ∧ t.inFlight = s.inFlight.filter (fun x => x.unit != unit) ∧
      t.responses.map Response.unit = s.responses.map Response.unit ++ [unit] := by
  obtain ⟨p, i, u, hp, -, hexec, rfl⟩ := answer_next h
  obtain rfl : p.unit = unit := by simpa using List.find?_some hp
  have hscript : u.script = s.script := by rw [exec_frame hexec]; rfl
  have hinFlight : u.inFlight = s.inFlight.filter fun x => x.unit != p.unit := inFlight_of_exec_present hexec
  refine ⟨hscript, hinFlight, ?_⟩
  rw [(handsOver_of_exec_present hexec).1, List.map_append]
  rfl

/-- An answer keeps every buffer's mark. -/
theorem answer_writable {unit : Nat} {s t : State} (h : answer unit s = .next t) (k : Nat) :
    (t.buffer k).writable = (s.buffer k).writable := by
  obtain ⟨p, i, u, -, -, hexec, rfl⟩ := answer_next h
  obtain ⟨-, -, -, hmarks, -⟩ := exec_keeps hexec
  exact (hmarks k).2

/-- A request whose operation exists is answered, a read-only encode apart. -/
theorem answer_ends {s : State} {p : Pending} {i : Instr} (hp : s.inFlight.find? (fun x => x.unit == p.unit) = some p)
    (hi : decode s.build.narrowCodecs p.ports.op = .ok i)
    (hmark : isEncode i = true → (s.buffer p.ports.buf).writable = true) : ∃ t, answer p.unit s = .next t := by
  obtain ⟨u, hexec⟩ := everyOperationEnds i (s.present p) hmark
  exact ⟨_, answer_eq_collect hp hi hexec⟩

/-- A step of an answerable state answers the oldest request, and the others stay answerable. -/
theorem State.Answerable.step_answers {s : State} {p : Pending} {ps : List Pending} (h : s.Answerable)
    (hf : s.inFlight = p :: ps) :
    ∃ t, step s = .next t ∧ t.Answerable ∧ t.inFlight = ps ∧
      t.responses.map Response.unit = s.responses.map Response.unit ++ [p.unit] := by
  obtain ⟨hscript, honePer, hserved⟩ := h
  rw [hf] at honePer hserved
  obtain ⟨i, hi, hmark⟩ := hserved p List.mem_cons_self
  obtain ⟨hothers, honePer'⟩ := List.pairwise_cons.1 honePer
  obtain ⟨t, ht⟩ := answer_ends (by rw [hf, List.find?_cons_of_pos (by simp)]) hi hmark
  obtain ⟨hscript', hinFlight, hresponses⟩ := answer_effect ht
  have hps : t.inFlight = ps := by
    rw [hinFlight, hf, List.filter_cons_of_neg (by simp), List.filter_eq_self]
    exact fun q hq => by simpa using (hothers q hq).symm
  refine ⟨t, (step_drain hscript hf).trans ht, ⟨hscript'.trans hscript, hps ▸ honePer', fun q hq => ?_⟩, hps, hresponses⟩
  rw [answer_build ht, answer_writable ht]
  exact hserved q (List.mem_cons_of_mem p (hps ▸ hq))

/-- As many steps as there are requests answer them all, in their order. -/
theorem State.Answerable.run_answers {s : State} (h : s.Answerable) {l : List Pending} (hf : s.inFlight = l) :
    ∃ t, core.run l.length s = .next t ∧ t.script = [] ∧ t.inFlight = [] ∧
      t.responses.map Response.unit = s.responses.map Response.unit ++ l.map Pending.unit := by
  induction l generalizing s with
  | nil => exact ⟨s, rfl, h.script, hf, by simp⟩
  | cons p ps ih =>
    obtain ⟨u, hstep, hu, hps, hone⟩ := h.step_answers hf
    obtain ⟨t, hrun, hscript, hinFlight, hrest⟩ := ih hu hps
    exact ⟨t, (run_next (M := core) ps.length hstep).trans hrun, hscript, hinFlight, by simp [hrest, hone]⟩

/-- Settles O54: the invariant makes the state answerable, and one step answers one request. -/
theorem everyRequestIsAnswered : Obligations.EveryRequestIsAnswered := fun _ hinv hs hmark =>
  (hinv.answerable hs hmark).run_answers rfl

/-! Every run ends (R166, R171). -/

/-- A bound on the steps that still do something: a move can put one request in progress, whose answer is a step of its own. -/
def State.stepsLeft (s : State) : Nat := 2 * s.script.length + s.inFlight.length

theorem State.stepsLeft_eq_zero {s : State} (h : s.stepsLeft = 0) : s.script = [] ∧ s.inFlight = [] := by
  unfold State.stepsLeft at h
  exact ⟨List.length_eq_zero_iff.1 (by omega), List.length_eq_zero_iff.1 (by omega)⟩

/-- An answer leaves fewer requests in progress. -/
theorem answer_inFlight_length_lt {unit : Nat} {s t : State} (h : answer unit s = .next t) :
    t.inFlight.length < s.inFlight.length := by
  obtain ⟨p, -, -, hp, -⟩ := answer_next h
  obtain ⟨-, hinFlight, -⟩ := answer_effect h
  rw [hinFlight, List.length_filter_lt_length_iff_exists]
  exact ⟨p, List.mem_of_find?_eq_some hp, by simpa using List.find?_some hp⟩

/-- A move leaves the moves after it alone and puts at most one request in progress. -/
theorem perform_script_and_inFlight {m : HostMove} {s t : State} (h : perform m s = .next t) :
    t.script = s.script ∧ t.inFlight.length ≤ s.inFlight.length + 1 := by
  cases m with
  | issue unit q =>
    obtain ⟨-, -, i, w, -, -, -, rfl⟩ := issue_next h
    exact ⟨rfl, by simp⟩
  | answer unit =>
    obtain ⟨hscript, -⟩ := answer_effect h
    have hlt := answer_inFlight_length_lt h
    exact ⟨hscript, by omega⟩
  | transact unit q =>
    obtain ⟨u, hissue, hanswer⟩ := transact_next h
    obtain ⟨-, -, i, w, -, -, -, rfl⟩ := issue_next hissue
    obtain ⟨hscript, -⟩ := answer_effect hanswer
    have hlt := answer_inFlight_length_lt hanswer
    simp only [List.length_append, List.length_singleton] at hlt
    exact ⟨hscript, hlt.le⟩
  | store buf off v => obtain ⟨-, -, b, -, rfl⟩ := hostStore_next h; exact ⟨rfl, Nat.le_succ _⟩
  | copy dst src => obtain ⟨v, -, rfl⟩ := hostCopy_next h; exact ⟨rfl, Nat.le_succ _⟩
  | addBuffer w bytes => obtain ⟨-, rfl⟩ := hostAddBuffer_next h; exact ⟨rfl, Nat.le_succ _⟩
  | reset => obtain ⟨-, ports, rfl⟩ := hostReset_next h; exact ⟨rfl, Nat.le_succ _⟩

/-- Every step lowers the bound, until nothing is left to do. -/
theorem stepsLeft_of_step {s t : State} (h : step s = .next t) : t.stepsLeft ≤ s.stepsLeft - 1 := by
  unfold State.stepsLeft
  rcases step_cases s with ⟨hs, hf, e⟩ | ⟨-, p, ps, -, e⟩ | ⟨m, rest, hs, e⟩ <;> rw [e] at h
  · cases h
    simp [hs, hf]
  · obtain ⟨hscript, -⟩ := answer_effect h
    have hlt := answer_inFlight_length_lt h
    rw [hscript]
    omega
  · obtain ⟨hscript, hle⟩ := perform_script_and_inFlight h
    simp only [hscript, hs, List.length_cons] at hle ⊢
    omega

/-- A run of as many steps as the bound, if it does not stop, leaves nothing to do. -/
theorem run_next_ends {k : Nat} {s t : State} (hk : s.stepsLeft ≤ k) (h : core.run k s = .next t) :
    t.script = [] ∧ t.inFlight = [] := by
  induction k generalizing s with
  | zero =>
    cases h
    exact State.stepsLeft_eq_zero (Nat.le_zero.1 hk)
  | succ k ih =>
    rw [core_run_succ] at h
    obtain ⟨u, hstep, hrun⟩ := andThen_next h
    have hlower := stepsLeft_of_step hstep
    exact ih (by omega) hrun

/-- Settles O55: the steps given are the bound, which every step lowers. -/
theorem everyRunEndsInBoundedSteps : Obligations.EveryRunEndsInBoundedSteps := by
  intro s
  split
  · next t h => exact run_next_ends (le_refl s.stepsLeft) h
  · trivial
  · trivial

end Sys2Proof.Machine
end

section
/-! The invariant (20_memory.md, 70_reset_and_hazards.md): what it asks of a request accepted, what it needs kept by every other
move, and that it holds at reset and after every step. -/

namespace Sys2Proof.Machine

/-- Settles O39: at reset there is one unit, no buffer and no transaction in progress. -/
theorem resetMeetsTheInvariant : Obligations.ResetMeetsTheInvariant where
  hasUnit := le_refl 1
  buffers := List.forall_mem_nil _
  units := List.forall_mem_nil _
  onePer := .nil
  legal := List.forall_mem_nil _
  disjoint := .nil

/-- Settles O38: the fields of the reset state, and the step with no move and no request. -/
theorem resetHoldsNothing : Obligations.ResetHoldsNothing :=
  ⟨rfl, rfl, rfl, rfl, rfl, rfl, rfl, step_idle rfl rfl⟩

/-- The invariant is kept where the build is, where no transaction is new, where the buffers are in their form, and where each
transaction still in progress has the extent it had. -/
theorem State.Inv.of_kept {s t : State} (h : s.Inv) (hbuild : t.build = s.build)
    (hflight : t.inFlight.Sublist s.inFlight) (hform : ∀ b ∈ t.buffers, b.wf = true)
    (hextent : ∀ p ∈ t.inFlight, t.extent p = s.extent p) : t.Inv where
  hasUnit := hbuild ▸ h.hasUnit
  buffers := hform
  units p hp := hbuild ▸ h.units p (hflight.subset hp)
  onePer := h.onePer.sublist hflight
  legal p hp := (State.pendingInstr_congr hbuild p).symm ▸ h.legal p (hflight.subset hp)
  disjoint := (h.disjoint.sublist hflight).imp_of_mem fun hp hq hc =>
    (State.conflict_congr hbuild _ _ (hextent _ hp) (hextent _ hq)).trans hc

/-- Where the buffers keep their lengths, the transactions keep their extents. -/
theorem State.Inv.of_lengths_kept {s t : State} (h : s.Inv) (hbuild : t.build = s.build)
    (hflight : t.inFlight.Sublist s.inFlight) (hform : ∀ b ∈ t.buffers, b.wf = true)
    (hlen : ∀ k, (t.buffer k).len = (s.buffer k).len) : t.Inv :=
  h.of_kept hbuild hflight hform fun p _ => State.extent_congr hbuild p (hlen _)

theorem State.Inv.buffer_wf {s : State} (h : s.Inv) (k : Nat) : (s.buffer k).wf = true := by
  rcases Nat.lt_or_ge k s.buffers.length with hlt | hge
  · rw [State.buffer, List.getD_eq_getElem _ _ hlt]
    exact h.buffers _ (List.getElem_mem hlt)
  · rw [State.buffer, List.getD_eq_default _ _ hge]
    rfl

/-- A request accepted (R41, R42, R57, R168): its unit exists and was idle, its word is an operation, and nothing overlaps. -/
theorem inv_of_issue {unit : Nat} {q : Request} {s t : State} (h : s.Inv) (ht : issue unit q s = .next t) : t.Inv := by
  obtain ⟨hunit, hidle, i, w, hi, -, hfree, rfl⟩ := issue_next ht
  have hothers : ∀ p ∈ s.inFlight, p.unit ≠ unit := by simpa [State.busy] using hidle
  have hlegal := Option.isSome_of_eq_some (State.pendingInstr_eq (p := ⟨unit, ⟨q.op, q.s, w, q.buf⟩, q.dst⟩) hi)
  refine ⟨h.hasUnit, h.buffers, ?_, ?_, ?_, ?_⟩
  · exact List.forall_mem_append.2 ⟨h.units, List.forall_mem_singleton.2 hunit⟩
  · exact List.pairwise_append.2 ⟨h.onePer, List.pairwise_singleton .., fun p hp => List.forall_mem_singleton.2 (hothers p hp)⟩
  · exact List.forall_mem_append.2 ⟨h.legal, List.forall_mem_singleton.2 hlegal⟩
  · exact List.pairwise_append.2 ⟨h.disjoint, List.pairwise_singleton .., fun p hp => List.forall_mem_singleton.2 (hfree p hp)⟩

/-- An answer takes a transaction off, and its operation keeps the buffers' lengths and form. -/
theorem inv_of_answer {unit : Nat} {s t : State} (h : s.Inv) (ht : answer unit s = .next t) : t.Inv := by
  obtain ⟨p, i, u, -, -, hexec, rfl⟩ := answer_next ht
  obtain ⟨hbuild, hflight, -, hmarks, hform⟩ := exec_keeps hexec
  exact h.of_lengths_kept hbuild (hflight ▸ List.filter_sublist) (hform h.buffers) fun k => (hmarks k).1

/-- A host store keeps its buffer's length and form. -/
theorem inv_of_hostStore {buf off : Nat} {v : Byte} {s t : State} (h : s.Inv) (ht : hostStore buf off v s = .next t) :
    t.Inv := by
  obtain ⟨-, -, b, hb, rfl⟩ := hostStore_next ht
  obtain ⟨-, -, -, -, hform⟩ := Buffer.store_some hb
  refine h.of_lengths_kept rfl (.refl _) (fun c hc => ?_) fun k => ((buffer_setBuffer_of_store hb).1 k).1
  rcases List.mem_or_eq_of_mem_set hc with hc | rfl
  · exact h.buffers c hc
  · exact hform (h.buffer_wf buf)

/-- A buffer brought in is in its form, and no transaction in progress reaches into it. -/
theorem inv_of_hostAddBuffer {w : Bool} {bytes : List Byte} {s t : State} (h : s.Inv)
    (ht : hostAddBuffer w bytes s = .next t) : t.Inv := by
  obtain ⟨hfree, rfl⟩ := hostAddBuffer_next ht
  obtain ⟨-, -, -, hform⟩ := Buffer.ofBytes_spec w bytes
  refine h.of_kept rfl (.refl _) (List.forall_mem_append.2 ⟨h.buffers, List.forall_mem_singleton.2 hform⟩) fun p hp => ?_
  by_cases hk : p.ports.buf = s.buffers.length
  · have hunused : s.uses p p.ports.buf = false := hk ▸ hfree p hp
    rw [State.extent_of_not_uses hunused]
    exact State.extent_of_not_uses hunused
  · have hold := (buffer_append s (Buffer.ofBytes w bytes) p.ports.buf).trans (if_neg hk)
    exact State.extent_congr (s := { s with buffers := s.buffers ++ [Buffer.ofBytes w bytes] }) (t := s) rfl p
      (congrArg Buffer.len hold)

theorem inv_of_perform {m : HostMove} {s t : State} (h : s.Inv) (ht : perform m s = .next t) : t.Inv := by
  cases m with
  | issue unit q => exact inv_of_issue h ht
  | answer unit => exact inv_of_answer h ht
  | transact unit q =>
    obtain ⟨u, hissue, hanswer⟩ := transact_next ht
    exact inv_of_answer (inv_of_issue h hissue) hanswer
  | store buf off v => exact inv_of_hostStore h ht
  | copy dst src =>
    obtain ⟨v, -, rfl⟩ := hostCopy_next ht
    exact h.of_lengths_kept rfl (.refl _) h.buffers fun _ => rfl
  | addBuffer w bytes => exact inv_of_hostAddBuffer h ht
  | reset =>
    obtain ⟨-, ports, rfl⟩ := hostReset_next ht
    exact h.of_lengths_kept rfl (.refl _) h.buffers fun _ => rfl

/-- Settles O40: an answer and every move keep the invariant, which does not see the script. -/
theorem everyStepKeepsTheInvariant : Obligations.EveryStepKeepsTheInvariant := by
  intro s t h ht
  rcases step_cases s with ⟨-, -, e⟩ | ⟨-, p, ps, -, e⟩ | ⟨m, rest, -, e⟩ <;> rw [e] at ht
  · cases ht; exact h
  · exact inv_of_answer h ht
  · have htaken : State.Inv { s with script := rest } := h.of_lengths_kept rfl (.refl _) h.buffers fun _ => rfl
    exact inv_of_perform htaken ht

end Sys2Proof.Machine
end

section
/-! The reserved words (R57) and the transaction (R21, R41): which words the decoder rejects, class by class; what a request is
refused for first (R149); and that a transaction in one move, or issued and answered, is its operation on its ports. -/

namespace Sys2Proof

/-- Settles O3: each word is read field by field. -/
theorem someWordsReadByHand : Obligations.SomeWordsReadByHand := by
  unfold Obligations.SomeWordsReadByHand
  decide

/-! The reserved words of each class, as the words that decode to nothing. -/

theorem exists_error_iff {x : Except DecodeReject Instr} : (∃ why, x = .error why) ↔ x.isOk = false := by
  cases x <;> simp [Except.isOk, Except.toBool]

theorem decodeConv_rejects {n : Width} {op : BitVec 8} :
    (decodeConv n op).isOk = false ↔ opA op = 0b11#2 ∨ opB op = 0b10#2 ∨ opB op = 0b11#2 ∨
      (opB op = 0b01#2 ∧ (opA op = 0b01#2 ∨ opA op = 0b10#2)) := by
  unfold decodeConv
  generalize opA op = a
  generalize opB op = b
  revert a b
  cases n <;> decide

theorem decodeCast_rejects {n : Width} {op : BitVec 8} :
    (decodeCast n op).isOk = false ↔ opA op = 0b11#2 ∨ opB op = 0b11#2 ∨ opA op = opB op := by
  unfold decodeCast
  generalize opA op = a
  generalize opB op = b
  revert a b
  cases n <;> decide

theorem decodeCodec_rejects {narrow : Bool} {n : Width} {op : BitVec 8} :
    (decodeCodec narrow n op).isOk = false ↔ opA op = 0b10#2 ∨ opA op = 0b11#2 ∨ opB op ≠ 0b00#2 ∨
      (narrow = false ∧ (n.code = 0b00#2 ∨ n.code = 0b01#2)) := by
  unfold decodeCodec
  generalize opA op = a
  generalize opB op = b
  revert a b
  cases narrow <;> cases n <;> decide

/-- The width field: the reserved code, or a width's. -/
theorem eq_reserved_or_code (f : BitVec 2) : f = 0b11#2 ∨ ∃ n : Width, f = n.code := by
  cases h : decodeWidth f with
  | none => exact .inl (by revert f; decide)
  | some n => exact .inr ⟨n, decodeWidth_eq_some.1 h⟩

@[simp] theorem decodeWidth_reserved : decodeWidth 0b11#2 = none := rfl

@[simp] theorem decodeWidth_code (n : Width) : decodeWidth n.code = some n := decodeWidth_eq_some.2 rfl

theorem Width.code_ne_reserved (n : Width) : n.code ≠ 0b11#2 := by cases n <;> decide

theorem cls_cases : ∀ c : BitVec 2, c = 0b00#2 ∨ c = 0b01#2 ∨ c = 0b10#2 ∨ c = 0b11#2 := by decide

theorem isOk_error (why : DecodeReject) : (Except.error why : Except DecodeReject Instr).isOk = false := rfl

/-- Settles O4: a reserved width or class is rejected, and of the other words each class rejects its own. -/
theorem reservedWordsByField : Obligations.ReservedWordsByField := by
  intro narrow op
  rw [exists_error_iff]
  rcases eq_reserved_or_code (opWsel op) with hw | ⟨n, hw⟩
  · rcases cls_cases (opCls op) with hc | hc | hc | hc <;> simp [decode, hw, hc, isOk_error]
  · have hne := n.code_ne_reserved
    rcases cls_cases (opCls op) with hc | hc | hc | hc
    · simp [decode, hc, hw, hne, decodeConv_rejects]
    · simp [decode, hc, hw, hne, decodeCast_rejects]
    · simp [decode, hc, hw, hne, decodeCodec_rejects]
    · simp [decode, hc, isOk_error]

end Sys2Proof

namespace Sys2Proof.Machine

/-! The transaction. -/

theorem issue_eq_reservedOp {unit : Nat} {q : Request} {s : State} {why : DecodeReject} (hu : unit < s.build.numUnits)
    (hb : s.busy unit = false) (hi : decode s.build.narrowCodecs q.op = .error why) :
    issue unit q s = .refused (.reservedOp q.op why) := by
  simp [issue, hu, hb, hi]

/-- Settles O5: the request is refused, so there is no answer. -/
theorem reservedRequestIsRefusedFirst : Obligations.ReservedRequestIsRefusedFirst := by
  intro s unit q rest why hs hu hb hi
  have hissue := issue_eq_reservedOp (s := { s with script := rest }) hu hb hi
  rw [step_cons hs, perform, hissue]
  rfl

/-- Settles O6: the request is accepted and answered at once. -/
theorem stepRunsTheDecodedOperation : Obligations.StepRunsTheDecodedOperation := fun _ _ _ _ _ _ => step_transact

/-! What a request presented sees of the state: none of the host's later moves. -/

@[simp] theorem State.busy_with_script (s : State) (l : List HostMove) (unit : Nat) :
    State.busy { s with script := l } unit = s.busy unit := rfl

@[simp] theorem State.driveWide_with_script (s : State) (l : List HostMove) (i : Instr) (o : WideOperand) :
    State.driveWide { s with script := l } i o = s.driveWide i o := rfl

@[simp] theorem State.conflict_with_script (s : State) (l : List HostMove) (p q : Pending) :
    State.conflict { s with script := l } p q = s.conflict p q := rfl

/-- A request presented is accepted or refused whatever the later moves are, and leaves them as they are. -/
theorem issue_with_script (unit : Nat) (q : Request) (s : State) (l : List HostMove) :
    issue unit q { s with script := l } = andThen (issue unit q s) (fun t => .next { t with script := l }) := by
  by_cases hu : unit < s.build.numUnits
  · by_cases hb : s.busy unit = true
    · simp [issue, hu, hb, andThen]
    · cases hi : decode s.build.narrowCodecs q.op with
      | error why => simp [issue, hu, hb, hi, andThen]
      | ok i =>
        cases hw : s.driveWide i q.w with
        | error name => simp [issue, hu, hb, hi, hw, andThen]
        | ok w =>
          by_cases hc : (s.inFlight.any fun x => s.conflict x ⟨unit, ⟨q.op, q.s, w, q.buf⟩, q.dst⟩) = true
          · simp [issue, hu, hb, hi, hw, hc, andThen]
          · simp [issue, hu, hb, hi, hw, hc, andThen]
  · simp [issue, hu, andThen]

/-- A step performs the move put in front of the others. -/
theorem step_with_script (s : State) (m : HostMove) (rest : List HostMove) :
    step { s with script := m :: rest } = perform m { s with script := rest } := step_cons rfl

/-- A run of one step is the step. -/
theorem core_run_one (s : State) : core.run 1 s = step s := by
  rw [core_run_succ]
  cases step s <;> rfl

/-- Settles O7: the answer is the next move after the request, and the request leaves the later moves alone. -/
theorem issueThenAnswerIsOneTransaction : Obligations.IssueThenAnswerIsOneTransaction := by
  intro s unit q rest hs
  have hsteps : core.run 2 s = andThen (issue unit q { s with script := .answer unit :: rest }) step := by
    rw [core_run_succ, step_cons hs, funext core_run_one]
    rfl
  have hone : step { s with script := .transact unit q :: rest } =
      andThen (issue unit q { s with script := rest }) (answer unit) :=
    step_with_script s (.transact unit q) rest
  rw [hsteps, hone, issue_with_script, issue_with_script unit q s rest]
  cases issue unit q s with
  | next t => exact step_with_script t (.answer unit) rest
  | fault r => rfl
  | refused r => rfl

end Sys2Proof.Machine
end

section
/-! What an operation depends on (R10, U8): two states that agree on the operands it reads give one response, and an encode
writes the same bytes. -/

namespace Sys2Proof.Machine

/-- Two states agree on what an operation reads (R55): the scalar, the low bits of the wide operand, the length of the buffer,
its mark for an encode, its bytes for a decode. -/
structure State.SameOperands (i : Instr) (s t : State) : Prop where
  scalar : (scalarOperand i).isSome = true → s.req.s = t.req.s
  wide : ∀ T, wideOperandType i = some T →
    s.req.w.setWidth (widthBits T.width) = t.req.w.setWidth (widthBits T.width)
  len : 0 < codecBytes i → s.reqBuffer.len = t.reqBuffer.len
  mark : isEncode i = true → s.reqBuffer.writable = t.reqBuffer.writable
  bytes : isEncode i = false → ∀ a, a < codecBytes i → s.reqBuffer.byte a = t.reqBuffer.byte a

/-- An operation that took `s` to `s'` and `t` to `t'` gave one status, one value where there is one, and wrote the same
bytes, each into its own state's buffer. -/
structure State.SameAnswer (i : Instr) (s s' t t' : State) : Prop where
  status : t'.resp.status = s'.resp.status
  result : s'.resp.status = .ok → (resultType i).isSome = true → t'.resp.r = s'.resp.r
  written : s'.resp.status = .ok → isEncode i = true →
    ∀ a, a < codecBytes i → (t'.buffer t.req.buf).byte a = (s'.buffer s.req.buf).byte a

/-- A length that suffices in one of the states suffices in the other. -/
theorem State.SameOperands.le_len {i : Instr} {s t : State} (h : State.SameOperands i s t)
    (hlen : codecBytes i ≤ s.reqBuffer.len) : codecBytes i ≤ t.reqBuffer.len := by
  rcases Nat.eq_zero_or_pos (codecBytes i) with hnone | hpos
  · omega
  · exact h.len hpos ▸ hlen

/-- Every cast, of whichever types, responds with the low bits of the wide operand (O20, O21). -/
theorem exec_of_cast {i : Instr} {T : WideType} (hT : wideOperandType i = some T) (henc : isEncode i = false)
    (s : State) :
    exec i s = .next { s with resp := { status := .ok, r := (s.req.w.setWidth (widthBits T.width)).setWidth 512 } } := by
  obtain ⟨⟨-, us128⟩, ⟨-, su128⟩, ⟨-, us256⟩, ⟨-, su256⟩, ⟨-, us512⟩, ⟨-, su512⟩, -⟩ := signedUnsignedCastsKeepTheBits
  obtain ⟨⟨-, ud128⟩, ⟨-, sd128⟩, ⟨-, du128⟩, ⟨-, ds128⟩, ⟨-, ud256⟩, ⟨-, sd256⟩, ⟨-, du256⟩, ⟨-, ds256⟩, ⟨-, ud512⟩,
    ⟨-, sd512⟩, ⟨-, du512⟩, ⟨-, ds512⟩, -⟩ := decimalCastsKeepTheBits
  cases i with
  | cast128US => cases hT; exact us128 s
  | cast128UD => cases hT; exact ud128 s
  | cast128SU => cases hT; exact su128 s
  | cast128SD => cases hT; exact sd128 s
  | cast128DU => cases hT; exact du128 s
  | cast128DS => cases hT; exact ds128 s
  | cast256US => cases hT; exact us256 s
  | cast256UD => cases hT; exact ud256 s
  | cast256SU => cases hT; exact su256 s
  | cast256SD => cases hT; exact sd256 s
  | cast256DU => cases hT; exact du256 s
  | cast256DS => cases hT; exact ds256 s
  | cast512US => cases hT; exact us512 s
  | cast512UD => cases hT; exact ud512 s
  | cast512SU => cases hT; exact su512 s
  | cast512SD => cases hT; exact sd512 s
  | cast512DU => cases hT; exact du512 s
  | cast512DS => cases hT; exact ds512 s
  | enc512 | enc128 | enc256 => cases henc
  | _ => cases hT

/-- A decode of a long enough buffer returns one value for the same bytes. -/
theorem exec_same_value_of_decodes {i : Instr} {op : BitVec 8} {s t : State}
    (hd : Decodes i op (codecBytes i) (8 * codecBytes i)) (h : State.SameOperands i s t) (henc : isEncode i = false)
    (hlen : codecBytes i ≤ s.reqBuffer.len) :
    ∃ r, exec i s = .next { s with resp := { status := .ok, r := r } } ∧
      exec i t = .next { t with resp := { status := .ok, r := r } } := by
  obtain ⟨v, e, hv, -⟩ := (hd.2 s).1 hlen
  exact ⟨_, e, hd.exec_eq_of_bytes (h.le_len hlen) fun a ha => (h.bytes henc a ha).symm.trans (hv a ha).symm⟩

/-- An operation other than an encode, its buffer long enough if it has one, returns one value for the same operands. -/
theorem exec_same_value {i : Instr} {s t : State} (h : State.SameOperands i s t) (henc : isEncode i = false)
    (hlen : codecBytes i ≤ s.reqBuffer.len) :
    ∃ r, exec i s = .next { s with resp := { status := .ok, r := r } } ∧
      exec i t = .next { t with resp := { status := .ok, r := r } } := by
  by_cases hscalar : (scalarOperand i).isSome = true
  · exact ⟨_, exec_eq_resultFromReset hscalar s, h.scalar hscalar ▸ exec_eq_resultFromReset hscalar t⟩
  · cases hT : wideOperandType i with
    | some T => exact ⟨_, exec_of_cast hT henc s, h.wide T hT ▸ exec_of_cast hT henc t⟩
    | none =>
      cases i with
      | dec512 => exact exec_same_value_of_decodes decodeOf512Bits h henc hlen
      | dec256 => exact exec_same_value_of_decodes narrowDecodes.2 h henc hlen
      | dec128 => exact exec_same_value_of_decodes narrowDecodes.1 h henc hlen
      | enc512 | enc256 | enc128 => cases henc
      | u128FromInt | u128FromUint | s128FromInt | d128FromInt | u256FromInt | u256FromUint | s256FromInt | d256FromInt
      | u512FromInt | u512FromUint | s512FromInt | d512FromInt => exact absurd rfl hscalar
      | _ => cases hT

/-- An encode into long enough buffers the host may write writes the bytes of the wide operand in both states. -/
theorem exec_sameAnswer_of_encodes {i : Instr} {op : BitVec 8} {T : WideType} {s s' t : State}
    (hT : wideOperandType i = some T) (he : Encodes i op (codecBytes i) (widthBits T.width)) (henc : isEncode i = true)
    (h : State.SameOperands i s t) (hmark : s.reqBuffer.writable = true) (hlen : codecBytes i ≤ s.reqBuffer.len)
    (hs : exec i s = .next s') : ∃ t', exec i t = .next t' ∧ State.SameAnswer i s s' t t' := by
  obtain ⟨u, es, hok, hbyte, -⟩ := (he.2 s hmark).1 hlen
  obtain ⟨t', et, hok', hbyte', -⟩ := (he.2 t ((h.mark henc).symm.trans hmark)).1 (h.le_len hlen)
  cases hs.symm.trans es
  refine ⟨t', et, hok'.trans hok.symm, fun _ hsome => ?_, fun _ _ a ha => ?_⟩
  · simp [resultType_of_isEncode henc] at hsome
  · rw [hbyte', hbyte, if_pos ha, if_pos ha, h.wide T hT]

/-- An operation that completes in one of two states that agree on its operands completes in the other, with the same answer:
both buffers are short, or both give one value, or both are written with the same bytes. -/
theorem exec_sameAnswer {i : Instr} {s s' t : State} (h : State.SameOperands i s t) (hs : exec i s = .next s') :
    ∃ t', exec i t = .next t' ∧ State.SameAnswer i s s' t t' := by
  have hmark : isEncode i = true → s.reqBuffer.writable = true := fun henc => by
    by_contra hro
    exact absurd (hs.symm.trans (readOnlyEncodeIsRefused i s henc (by simpa using hro))) nofun
  rcases Nat.lt_or_ge s.reqBuffer.len (codecBytes i) with hshort | hlen
  · have es := (shortBufferEndsTheOperation i s hmark).1 hshort
    have et := (shortBufferEndsTheOperation i t fun henc => (h.mark henc).symm.trans (hmark henc)).1
      (h.len (by omega) ▸ hshort)
    cases hs.symm.trans es
    exact ⟨_, et, rfl, nofun, nofun⟩
  · cases henc : isEncode i with
    | false =>
      obtain ⟨r, es, et⟩ := exec_same_value h henc hlen
      cases hs.symm.trans es
      exact ⟨_, et, rfl, fun _ _ => rfl, fun _ htrue => absurd (htrue.symm.trans henc) nofun⟩
    | true =>
      cases i with
      | enc512 => exact exec_sameAnswer_of_encodes rfl encodeOf512Bits rfl h (hmark rfl) hlen hs
      | enc256 => exact exec_sameAnswer_of_encodes rfl narrowEncodes.2 rfl h (hmark rfl) hlen hs
      | enc128 => exact exec_sameAnswer_of_encodes rfl narrowEncodes.1 rfl h (hmark rfl) hlen hs
      | _ => cases henc

/-- Settles O42: the premises are the same operands, and the conclusion the same answer. -/
theorem responseDependsOnItsOperandsOnly : Obligations.ResponseDependsOnItsOperandsOnly := by
  intro i s t s' hscalar hwide hlen hmark hbytes hs
  obtain ⟨t', et, hstatus, hresult, hwritten⟩ := exec_sameAnswer ⟨hscalar, hwide, hlen, hmark, hbytes⟩ hs
  exact ⟨t', et, hstatus, hresult, hwritten⟩

end Sys2Proof.Machine
end
